-- ==== Sys2Proof/Word.lean ====
section
/-!
DEFINITION. The word widths of the ColorDimmer framer (spec/00_scope.md R6, R7; spec/10_state.md R10).
Every value of this hardware is unsigned, bit 0 is the least significant bit, and `a + b` on a `Byte`
is the spec's `a +_8 b`: the low 8 bits of the sum, the carry discarded (spec/40_checksum.md R82).
-/

namespace Sys2Proof

/-- One byte of a frame: 8 bits, unsigned (R6). -/
abbrev Byte := BitVec 8

/-- The 33-bit command word `cw` on the command port (R51). -/
abbrev CommandWord := BitVec 33

/-- The 32-bit operand latch `opd`, a copy of `cw[31:0]` (R10, R11). -/
abbrev OperandWord := BitVec 32

end Sys2Proof
end

