-- ==== Sys2Proof/Config.lean ====
section
/-!
DEFINITION. What is fixed for this hardware (spec/00_scope.md R5: the protocol constants in one record) and the
free values of the model: what the environment drives on the input ports once the samples the state lists are used up
(spec/92_eei_decisions.md D25; notes/assumptions/2.md).
-/

namespace Sys2Proof.Config

/-- The protocol constants of R5, under the spec's own names. -/
structure Protocol where
  /-- `HDR_CMD`: header of a command frame. -/
  hdrCmd : Byte
  /-- `CMD_ID`: command id of the one command family. -/
  cmdId : Byte
  /-- `LEN_CMD`: length field of a command frame, the count of its payload bytes. -/
  lenCmd : Byte
  /-- `HDR_ACK`: header of a response frame. -/
  hdrAck : Byte
  /-- `LEN_RSP`: length field of a response frame, a constant and not a count (90_conflicts.md C4). -/
  lenRsp : Byte
  briMin : Nat
  briMax : Nat
  ctMin : Nat
  ctMax : Nat
  duvMin : Nat
  duvMax : Nat
deriving DecidableEq, Repr

/-- The number of payload positions of the command frame, positions 3 to 6 (spec/30_encoding.md R54). -/
def payloadPositions : Nat := 4

/-- The static length check of R154: the declared payload length of the command frame is its number of payload
positions. It is not applied to the response frame (90_conflicts.md C4). -/
def lengthAgrees (p : Protocol) : Bool := p.lenCmd.toNat == payloadPositions

/-- Building a configuration checks the length once and refuses a record that breaks it (R154, U9). -/
def build (p : Protocol) : Option Protocol := if lengthAgrees p then some p else none

/-- The values of this hardware (R5). They are build-time constants: no input changes them (R16, D24). -/
def protocol : Protocol where
  hdrCmd := 0x01
  cmdId := 0xA0
  lenCmd := 0x04
  hdrAck := 0x06
  lenRsp := 0x04
  briMin := 0
  briMax := 1000
  ctMin := 1
  ctMax := 61
  duvMin := 1
  duvMax := 5

/-- Free value (DESIGN CHOICE, notes/assumptions/2.md): what the environment drives on `rst` in step `n`. -/
opaque freeRst : Nat → Bool

/-- Free value (DESIGN CHOICE, notes/assumptions/2.md): what the requester drives on `cmd_valid` in step `n`. -/
opaque freeCmdValid : Nat → Bool

/-- Free value (DESIGN CHOICE, notes/assumptions/2.md): what the requester drives on `cw` in step `n`. -/
opaque freeCw : Nat → CommandWord

/-- Free value (DESIGN CHOICE, notes/assumptions/2.md): what the sink drives on `tx_ready` in step `n`. -/
opaque freeTxReady : Nat → Bool

end Sys2Proof.Config
end

