-- ==== Sys2Proof/Syntax.lean ====
section
/-!
DEFINITION. The instructions: one constructor for each row of spec/opcode_table.json (spec/30_encoding.md R66): the two
operations a requester can ask for, and the two frame formats that the block emits. Also the typed frame records
of R67 and the two kinds of encoded item of R66: a command word, and the bytes of a frame.
-/

namespace Sys2Proof

/-- The two operations (R50), selected by `op = cw[32]` and latched in `opr`. -/
inductive Operation where
  /-- `op = 0`: send the command frame. -/
  | encCmd
  /-- `op = 1`: send the response frame. -/
  | encRsp
deriving DecidableEq, Repr

/-- One constructor for each row of the opcode table. -/
inductive Instr where
  /-- `ENC_CMD bri, ct, duv` (R52, R90): a command word of format `CW-C`. -/
  | encCmd (bri : BitVec 16) (ct duv : Byte)
  /-- `ENC_RSP cid, ign=…` (R53, R110): a command word of format `CW-R`; `ign` is `cw[31:8]`, any value. -/
  | encRsp (ign : BitVec 24) (cid : Byte)
  /-- `CMD_FRAME` (R54): the 8-byte frame that an accepted `ENC_CMD` sends, by its bytes 3 to 7. -/
  | cmdFrame (high low ct duv sum : Byte)
  /-- `RSP_FRAME` (R56): the 5-byte frame that an `ENC_RSP` sends, by its command id and its checksum byte. -/
  | rspFrame (cid sum : Byte)
deriving DecidableEq, Repr

/-- A command frame as a typed record (R67); the positions are those of R54. -/
structure CmdFrame where
  frameHeader : Byte
  commandId : Byte
  length : Byte
  brightnessHigh : Byte
  brightnessLow : Byte
  colorTemp : Byte
  duv : Byte
  checksum : Byte
deriving DecidableEq, Repr

/-- A response frame as a typed record (R67); the positions are those of R56. -/
structure RspFrame where
  frameHeader : Byte
  commandId : Byte
  length : Byte
  payload : Byte
  checksum : Byte
deriving DecidableEq, Repr

/-- The two kinds of encoded item (R66): a word on the command port, and the bytes of a frame, position 0 first. -/
inductive Image where
  | command (cw : CommandWord)
  | frame (bytes : List Byte)
deriving DecidableEq, Repr

end Sys2Proof
end

