-- ==== Sys2Proof/Machine/Operands.lean ====
section
/-!
DEFINITION. The operand fields of the command word and of the operand latch (spec/10_state.md R11; spec/30_encoding.md
R51 to R53), the operand ranges, the checksum function (spec/40_checksum.md R80), the byte-field multiplexer `Field`
and the frames (spec/30_encoding.md R54 to R60).
-/

namespace Sys2Proof

/-- The operation that the selector bit names: 0 is `ENC_CMD`, 1 is `ENC_RSP` (R50). -/
def Operation.ofBit (b : Bool) : Operation := if b then .encRsp else .encCmd

/-- The selector bit of an operation (R50). -/
def Operation.bit : Operation → BitVec 1
  | .encCmd => 0
  | .encRsp => 1

namespace Machine

/-! ### The command word (R51) -/

/-- `op = cw[32]`. -/
def cwOp (cw : CommandWord) : Operation := .ofBit (cw.getLsbD 32)
/-- `cw[31:0]`, what an accept latches. -/
def cwOpd (cw : CommandWord) : OperandWord := cw.extractLsb' 0 32
/-- `bri = cw[31:16]` (R52). -/
def cwBri (cw : CommandWord) : BitVec 16 := cw.extractLsb' 16 16
/-- `ct = cw[15:8]` (R52). -/
def cwCt (cw : CommandWord) : Byte := cw.extractLsb' 8 8
/-- `duv = cw[7:0]` (R52). -/
def cwDuv (cw : CommandWord) : Byte := cw.extractLsb' 0 8
/-- `cid = cw[7:0]` (R53). -/
def cwCid (cw : CommandWord) : Byte := cw.extractLsb' 0 8
/-- `cw[31:8]`, the ignored bits of an `ENC_RSP` word (R53). -/
def cwIgn (cw : CommandWord) : BitVec 24 := cw.extractLsb' 8 24

/-- `(op, opd)` put together: the selector bit above the 32 operand bits. -/
def commandWord (op : Operation) (opd : OperandWord) : CommandWord := op.bit ++ opd

/-- The operand bits of `ENC_CMD bri, ct, duv`: brightness highest (R51). -/
def cmdOpd (bri : BitVec 16) (ct duv : Byte) : OperandWord := bri ++ ct ++ duv

/-- The operand bits of `ENC_RSP cid` with the ignored bits `ign` (R51). -/
def rspOpd (ign : BitVec 24) (cid : Byte) : OperandWord := ign ++ cid

/-! ### The field views of the operand latch (R11) -/

/-- `opd.bri = opd[31:16]`. -/
def opdBri (opd : OperandWord) : BitVec 16 := opd.extractLsb' 16 16
/-- `opd[31:24]`, the brightness high byte: `(brightness >> 8) & 0xFF` (R58, R61). -/
def opdHigh (opd : OperandWord) : Byte := opd.extractLsb' 24 8
/-- `opd[23:16]`, the brightness low byte: `brightness & 0xFF` (R58, R61). -/
def opdLow (opd : OperandWord) : Byte := opd.extractLsb' 16 8
/-- `opd.ct = opd[15:8]`. -/
def opdCt (opd : OperandWord) : Byte := opd.extractLsb' 8 8
/-- `opd.duv = opd[7:0]`. -/
def opdDuv (opd : OperandWord) : Byte := opd.extractLsb' 0 8
/-- `opd.cid = opd[7:0]`. -/
def opdCid (opd : OperandWord) : Byte := opd.extractLsb' 0 8

/-- `bri[15:8]` (R61). -/
def briHigh (bri : BitVec 16) : Byte := bri.extractLsb' 8 8
/-- `bri[7:0]` (R61). -/
def briLow (bri : BitVec 16) : Byte := bri.extractLsb' 0 8

/-! ### The operand ranges (R5, R92), all bounds inclusive and unsigned -/

def briInRange (bri : BitVec 16) : Bool :=
  decide (Config.protocol.briMin ≤ bri.toNat ∧ bri.toNat ≤ Config.protocol.briMax)

def ctInRange (ct : Byte) : Bool :=
  decide (Config.protocol.ctMin ≤ ct.toNat ∧ ct.toNat ≤ Config.protocol.ctMax)

def duvInRange (duv : Byte) : Bool :=
  decide (Config.protocol.duvMin ≤ duv.toNat ∧ duv.toNat ≤ Config.protocol.duvMax)

/-! ### The checksum (R80) -/

/-- `Checksum(l)`: the bytes added from 0 in an 8-bit accumulator. -/
def checksum (l : List Byte) : Byte := l.foldl (· + ·) 0

/-- The predicate a receiver would apply (R87): the last byte is the checksum of the bytes before it. -/
def frameValid (f : List Byte) : Bool := f.getLast? == some (checksum f.dropLast)

/-! ### The byte-field multiplexer and the frames -/

/-- `LastIdx(op)`: the position of the checksum byte (R59). -/
def lastIdx : Operation → BitVec 3
  | .encCmd => 7
  | .encRsp => 4

/-- `N(op)`: the frame length in bytes (R59, R6). -/
def frameLength (op : Operation) : Nat := (lastIdx op).toNat + 1

/-- `Field(op, i, opd, acc)` (R58). Positions 5, 6 and 7 of a response frame have no row: no byte (U1). -/
def field (op : Operation) (i : BitVec 3) (opd : OperandWord) (acc : Byte) : Option Byte :=
  match op, i.toNat with
  | .encCmd, 0 => some Config.protocol.hdrCmd
  | .encCmd, 1 => some Config.protocol.cmdId
  | .encCmd, 2 => some Config.protocol.lenCmd
  | .encCmd, 3 => some (opdHigh opd)
  | .encCmd, 4 => some (opdLow opd)
  | .encCmd, 5 => some (opdCt opd)
  | .encCmd, 6 => some (opdDuv opd)
  | .encCmd, _ => some acc
  | .encRsp, 0 => some Config.protocol.hdrAck
  | .encRsp, 1 => some (opdCid opd)
  | .encRsp, 2 => some Config.protocol.lenRsp
  | .encRsp, 3 => some (opdCid opd)
  | .encRsp, 4 => some acc
  | .encRsp, _ => none

/-- The command frame of given operands as a typed record (R54, R67). -/
def cmdFrameOf (high low ct duv : Byte) : CmdFrame where
  frameHeader := Config.protocol.hdrCmd
  commandId := Config.protocol.cmdId
  length := Config.protocol.lenCmd
  brightnessHigh := high
  brightnessLow := low
  colorTemp := ct
  duv := duv
  checksum := checksum
    [Config.protocol.hdrCmd, Config.protocol.cmdId, Config.protocol.lenCmd, high, low, ct, duv]

/-- The response frame of a given command id as a typed record (R56, R67). -/
def rspFrameOf (cid : Byte) : RspFrame where
  frameHeader := Config.protocol.hdrAck
  commandId := cid
  length := Config.protocol.lenRsp
  payload := cid
  checksum := checksum [Config.protocol.hdrAck, cid, Config.protocol.lenRsp, cid]

/-- The bytes of a command frame, position 0 first (R54). -/
def cmdFrameBytes (f : CmdFrame) : List Byte :=
  [f.frameHeader, f.commandId, f.length, f.brightnessHigh, f.brightnessLow, f.colorTemp, f.duv,
    f.checksum]

/-- The bytes of a response frame, position 0 first (R56). -/
def rspFrameBytes (f : RspFrame) : List Byte :=
  [f.frameHeader, f.commandId, f.length, f.payload, f.checksum]

/-- `Frame(op, opd)`: the whole frame, the concatenation that the block performs in time (R60). -/
def frame (op : Operation) (opd : OperandWord) : List Byte :=
  match op with
  | .encCmd => cmdFrameBytes (cmdFrameOf (opdHigh opd) (opdLow opd) (opdCt opd) (opdDuv opd))
  | .encRsp => rspFrameBytes (rspFrameOf (opdCid opd))

/-- `body(op, opd)`: the frame without its checksum byte (R60). -/
def body (op : Operation) (opd : OperandWord) : List Byte := (frame op opd).dropLast

end Machine

end Sys2Proof
end

