-- ==== Sys2Proof/Machine/State.lean ====
section
/-!
DEFINITION. The state: the five registers of the block (spec/10_state.md R10), and beside them the model's own two
parts, which are no hardware state (R19): the environment's input samples (R17) and the record of events
(spec/43_sequencer.md R131). Faults and refusals stand here too.
-/

namespace Sys2Proof.Machine

/-- The phase `st` (R12): `IDLE = 0`, `SEND = 1`. The encoding is never visible on a port. -/
inductive Phase where
  | idle
  | send
deriving DecidableEq, Repr

/-- The architectural state `S = (st, idx, acc, opr, opd)`, 45 bits in all (R10). -/
structure Regs where
  /-- 1 bit: the phase (R12). -/
  st : Phase
  /-- 3 bits: index of the frame byte now offered (R13). -/
  idx : BitVec 3
  /-- 8 bits: running checksum of the bytes already transferred (R14). -/
  acc : Byte
  /-- 1 bit: the latched operation (R11). -/
  opr : Operation
  /-- 32 bits: the latched operands (R11). -/
  opd : OperandWord
deriving DecidableEq, Repr

/-- The input ports, sampled once a step (R17). -/
structure Input where
  rst : Bool
  cmdValid : Bool
  cw : CommandWord
  txReady : Bool
deriving DecidableEq, Repr

/-- The output ports (R18). They are functions of the registers and the inputs, not state (R19). -/
structure Output where
  cmdReady : Bool
  rej : Bool
  rejCause : BitVec 3
  txValid : Bool
  txData : Byte
  txLast : Bool
deriving DecidableEq, Repr

/-- The events of a run (R131). -/
inductive Event where
  | reset
  | accept (op : Operation) (opd : OperandWord)
  | reject (cw : CommandWord) (cause : BitVec 3)
  | tx (byte : Byte) (last : Bool)
deriving DecidableEq, Repr

/-- The machine. `regs` is the hardware's state and all of it (R10, R20). The other three fields are the MODEL's own
(DESIGN CHOICE, notes/assumptions/1.md, 2.md, 3.md): the hardware does not store them. -/
structure State where
  /-- The five registers. -/
  regs : Regs
  /-- The samples of the input ports still to come, the next step's first. -/
  inputs : List Input
  /-- How many steps the machine has taken: it selects the free sample when `inputs` is used up. -/
  tick : Nat
  /-- The events so far, oldest first. -/
  events : List Event
deriving DecidableEq, Repr

/-- Why the machine stops with a fault. -/
inductive Fault where
  /-- Raised by a `SEND` step with `opr = ENC_RSP` and `idx` of 5, 6 or 7, where `Field` has no row (R58, R129, U1,
  D21). Safe: the spec gives the step no result, and no run from reset gets there. -/
  | undefinedField
deriving DecidableEq, Repr

/-- Why a meaning refuses. -/
inductive Refusal where
  /-- Raised by an arm of `exec` whose instruction has no meaning yet. Safe: the machine stops. -/
  | notModelled (mnemonic : String)
  /-- Raised by `CMD_FRAME` and `RSP_FRAME` in a state in which that frame is not the one in progress: the block sends
  a frame only after it latched its operands (R63, R99, R132; notes/assumptions/5.md). Safe: the machine stops, and
  no step of the machine raises it. -/
  | frameNotInFlight
deriving DecidableEq, Repr

/-- The reset state `S0 = (IDLE, 0, 0x00, 0, 0x00000000)` (R23). -/
def Regs.reset : Regs where
  st := .idle
  idx := 0
  acc := 0x00
  opr := .encCmd
  opd := 0x00000000

/-- The machine right after reset: the registers as R23 says; the model's own fields empty (DESIGN CHOICE,
notes/assumptions/1.md, 2.md, 3.md), so that every input from here on is free. -/
def State.reset : State where
  regs := Regs.reset
  inputs := []
  tick := 0
  events := []

end Sys2Proof.Machine
end

