-- ==== Sys2Proof/Machine/Flags.lean ====
section
/-!
DEFINITION. The status the block reports. It has no flag register (spec/10_state.md R15): the rejection cause and
every other output are functions of the registers and of the inputs of the same step (R18;
spec/41_enc_cmd.md R92; spec/60_exceptions.md R151).
-/

namespace Sys2Proof.Machine

/-- `RangeCause(cw)` (R92, R151): bit 0 is brightness (`REJ_BRI`), bit 1 color_temp (`REJ_CT`), bit 2 duv (`REJ_DUV`);
all three tests are always made, and an `ENC_RSP` word is never out of range. -/
def rangeCause (cw : CommandWord) : BitVec 3 :=
  match cwOp cw with
  | .encRsp => 0b000
  | .encCmd =>
    BitVec.ofBool (!duvInRange (cwDuv cw)) ++ BitVec.ofBool (!ctInRange (cwCt cw)) ++
      BitVec.ofBool (!briInRange (cwBri cw))

/-- Every output zero: a step in reset (R171). -/
def quietOutput : Output where
  cmdReady := false
  rej := false
  rejCause := 0b000
  txValid := false
  txData := 0x00
  txLast := false

/-- The outputs of an `IDLE` step whose sampled command raises `cause` (0 for none). -/
def idleOutput (cause : BitVec 3) : Output where
  cmdReady := true
  rej := cause != 0b000
  rejCause := cause
  txValid := false
  txData := 0x00
  txLast := false

/-- The outputs of `TxByte(b, last)` (R34). -/
def txOutput (b : Byte) (last : Bool) : Output where
  cmdReady := false
  rej := false
  rejCause := 0b000
  txValid := true
  txData := b
  txLast := last

/-- The output ports of a step with registers `r` and inputs `i` (R18, R121 to R127). No output is given where `Field`
has no row (U1). -/
def outputs (r : Regs) (i : Input) : Option Output :=
  if i.rst then some quietOutput
  else match r.st with
    | .idle => some (idleOutput (if i.cmdValid then rangeCause i.cw else 0b000))
    | .send =>
      (field r.opr r.idx r.opd r.acc).map fun b => txOutput b (r.idx == lastIdx r.opr)

end Sys2Proof.Machine
end

