-- ==== Sys2Proof/Machine/Ops.lean ====
section
/-!
DEFINITION. The shared operations: taking the step's input sample, and the seven arms of `Step`
(spec/43_sequencer.md R120 to R127). The one exception, `raise Reject(cause)`, is `raiseReject`
(spec/60_exceptions.md R150, R157). There is no return operation beside it: after a rejection there is nothing to
restore, and the next step samples the command port again (R158). The hardware has no memory
(spec/20_memory.md R30), so no operation reads or writes one.
-/

namespace Sys2Proof.Machine

/-- The sample of the input ports in the step that is `k` steps ahead: the listed one, or a free one when the list is
used up (DESIGN CHOICE, notes/assumptions/2.md). -/
def State.inputAt (s : State) (k : Nat) : Input :=
  match s.inputs[k]? with
  | some i => i
  | none =>
    { rst := Config.freeRst (s.tick + k), cmdValid := Config.freeCmdValid (s.tick + k),
      cw := Config.freeCw (s.tick + k), txReady := Config.freeTxReady (s.tick + k) }

/-- The sample that the next step takes: the input record `I` of `Step(S, I)` (R17). -/
def State.input (s : State) : Input := s.inputAt 0

/-- The output ports in the next step (R18). -/
def State.output (s : State) : Option Output := outputs s.regs s.input

/-- The end of a step: the registers take their new values together (R8), the sample is used, the step's event, if it
has one, is recorded. -/
def State.advance (s : State) (r : Regs) (e : List Event) : State where
  regs := r
  inputs := s.inputs.tail
  tick := s.tick + 1
  events := s.events ++ e

/-- Arm RESET (R121, R170). -/
def resetStep (s : State) : State := s.advance Regs.reset [.reset]

/-- Arm IDLE-WAIT (R122). -/
def idleWait (s : State) : State := s.advance s.regs []

/-- Arm ACCEPT (R123): the whole command word is latched, the accumulator cleared (R83). -/
def accept (op : Operation) (opd : OperandWord) (s : State) : State :=
  s.advance { st := .send, idx := 0, acc := 0x00, opr := op, opd := opd } [.accept op opd]

/-- `raise Reject(cause)`, arm REJECT (R124, R150): no register changes; the cause is on `rej_cause` in this step
(`outputs`) and nowhere afterwards (R152). -/
def raiseReject (cw : CommandWord) (cause : BitVec 3) (s : State) : State :=
  s.advance s.regs [.reject cw cause]

/-- Arm SEND-NEXT (R125): byte `b` leaves, is added to the accumulator (R84), the index moves on. -/
def sendNext (b : Byte) (s : State) : State :=
  s.advance { s.regs with acc := s.regs.acc + b, idx := s.regs.idx + 1 } [.tx b false]

/-- Arm SEND-LAST (R126): the checksum byte `b` leaves and is not added; the accumulator is cleared (R85). -/
def sendLast (b : Byte) (s : State) : State :=
  s.advance { s.regs with st := .idle, idx := 0, acc := 0x00 } [.tx b true]

/-- Arm STALL (R127): nothing changes. -/
def stall (s : State) : State := s.advance s.regs []

/-- `TxByte` in a step with `st = SEND` and `rst = 0` (R34): the byte that `Field` offers is transferred if the sink is
ready, otherwise the step is a stall. Where `Field` has no row the step has no result (U1, D21). -/
def sendStep (s : State) : Host.Outcome State Fault Refusal :=
  match field s.regs.opr s.regs.idx s.regs.opd s.regs.acc with
  | none => .fault .undefinedField
  | some b =>
    if s.input.txReady then
      if s.regs.idx = lastIdx s.regs.opr then .next (sendLast b s) else .next (sendNext b s)
    else .next (stall s)

/-- A step in which a command word is presented, `sampled` being what happens when it is sampled (R35): reset comes
first, then the phase decides (R156); in `SEND` the word is not read and the frame in progress goes on (R128, R176). -/
def whenSampled (s : State) (sampled : State) : Host.Outcome State Fault Refusal :=
  if s.input.rst then .next (resetStep s)
  else match s.regs.st with
    | .idle => .next sampled
    | .send => sendStep s

/-- A step of the frame `(op, opd)`, where `inFlight` says that it is the one in progress: reset comes first; then its
next byte is offered; a frame that is not in progress cannot be sent (R63; notes/assumptions/5.md). -/
def whenInFlight (s : State) (inFlight : Bool) : Host.Outcome State Fault Refusal :=
  if s.input.rst then .next (resetStep s)
  else if s.regs.st = .send ∧ inFlight then sendStep s
  else .refused .frameNotInFlight

end Sys2Proof.Machine
end

