-- ==== Sys2Proof/Machine/EncCmd.lean ====
section
/-!
DEFINITION. `ENC_CMD` (spec/41_enc_cmd.md R90, R92, R99): the step in which its command word is presented.
The frame it sends leaves in the steps that follow, each of them a step of `CMD_FRAME`.
-/

namespace Sys2Proof.Machine

/-- `ENC_CMD bri, ct, duv`: the range check comes before anything else; a word out of range raises `Reject` with every
broken range in the cause (R124), any other is accepted and latched whole (R123). -/
def execEncCmd (bri : BitVec 16) (ct duv : Byte) (s : State) : Host.Outcome State Fault Refusal :=
  let opd := cmdOpd bri ct duv
  let cw := commandWord .encCmd opd
  let cause := rangeCause cw
  whenSampled s (if cause = 0b000 then accept .encCmd opd s else raiseReject cw cause s)

end Sys2Proof.Machine
end

