-- ==== Sys2Proof/Machine/EncRsp.lean ====
section
/-!
DEFINITION. `ENC_RSP` (spec/42_enc_rsp.md R110): the step in which its command word is presented. The frame it sends
leaves in the steps that follow, each of them a step of `RSP_FRAME`.
-/

namespace Sys2Proof.Machine

/-- `ENC_RSP cid`: never rejected; all 32 operand bits are latched, the ignored ones too (R53, R123, D27). -/
def execEncRsp (ign : BitVec 24) (cid : Byte) (s : State) : Host.Outcome State Fault Refusal :=
  whenSampled s (accept .encRsp (rspOpd ign cid) s)

end Sys2Proof.Machine
end

