-- ==== Sys2Proof/Machine/Frames.lean ====
section
/-!
DEFINITION. `CMD_FRAME` and `RSP_FRAME` (spec/30_encoding.md R54, R56; spec/43_sequencer.md R125 to R127): a step of the
frame that is in progress, in which its byte at position `idx` is offered to the sink. The frame is not held anywhere
as a whole (spec/10_state.md R19): the bytes come from the operand latch and the accumulator. The checksum byte is
"recomputed, never trusted from elsewhere" (R14), so the one that the instruction carries is not read
(notes/assumptions/6.md).
-/

namespace Sys2Proof.Machine

/-- `CMD_FRAME`: a step of the command frame whose operands are the given bytes. -/
def execCmdFrame (high low ct duv _sum : Byte) (s : State) : Host.Outcome State Fault Refusal :=
  whenInFlight s (s.regs.opr = .encCmd ∧ s.regs.opd = cmdOpd (high ++ low) ct duv)

/-- `RSP_FRAME`: a step of the response frame for `cid`. `opd[31:8]` is not read (R11, D27). -/
def execRspFrame (cid _sum : Byte) (s : State) : Host.Outcome State Fault Refusal :=
  whenInFlight s (s.regs.opr = .encRsp ∧ opdCid s.regs.opd = cid)

end Sys2Proof.Machine
end

