-- ==== Sys2Proof/Machine/Dispatch.lean ====
section
/-!
DEFINITION. One arm for each instruction, each a direct call of its meaning.
-/

namespace Sys2Proof.Machine

def exec (i : Instr) (s : State) : Host.Outcome State Fault Refusal :=
  match i with
  | .encCmd bri ct duv => Sys2Proof.Machine.execEncCmd bri ct duv s
  | .encRsp ign cid => Sys2Proof.Machine.execEncRsp ign cid s
  | .cmdFrame high low ct duv sum => Sys2Proof.Machine.execCmdFrame high low ct duv sum s
  | .rspFrame cid sum => Sys2Proof.Machine.execRspFrame cid sum s

end Sys2Proof.Machine
end

