-- ==== Sys2Proof/WellFormed.lean ====
section
/-!
DEFINITION. Which instructions are well formed. Every command word is (spec/30_encoding.md R63: an operand out of range
is a legal word that the block rejects). A frame is well formed when it is one the block can emit: operands in range
and the checksum byte right (the notes of CMD_FRAME and RSP_FRAME in spec/opcode_table.json; spec/40_checksum.md R87).
-/

namespace Sys2Proof

/-- What is wrong with an instruction. -/
inductive FormError where
  /-- The brightness of a command frame is above 1000. -/
  | brightnessOutOfRange
  /-- The color_temp of a command frame is outside 1 to 61. -/
  | colorTempOutOfRange
  /-- The duv of a command frame is outside 1 to 5. -/
  | duvOutOfRange
  /-- The checksum byte is not the checksum of the bytes before it. -/
  | wrongChecksum
deriving DecidableEq, Repr

/-- The first check that an instruction breaks, none when it is well formed. -/
def formError : Instr → Option FormError
  | .encCmd _ _ _ => none
  | .encRsp _ _ => none
  | .cmdFrame high low ct duv sum =>
    if !Machine.briInRange (high ++ low) then some .brightnessOutOfRange
    else if !Machine.ctInRange ct then some .colorTempOutOfRange
    else if !Machine.duvInRange duv then some .duvOutOfRange
    else if sum != (Machine.cmdFrameOf high low ct duv).checksum then some .wrongChecksum
    else none
  | .rspFrame cid sum =>
    if sum != (Machine.rspFrameOf cid).checksum then some .wrongChecksum else none

/-- An instruction breaks no check. -/
def wellFormed (i : Instr) : Bool := formError i == none

end Sys2Proof
end

