-- ==== Sys2Proof/Decode.lean ====
section
/-!
DEFINITION. The decoder of command words and recogniser of frames (spec/30_encoding.md R51, R54, R56, R66), total and
rejecting by name, and after it the encoder. Last, the word that spec/opcode_table.json numbers.
-/

namespace Sys2Proof

/-- Why a list of bytes is no frame of the block. -/
inductive DecodeError where
  /-- There is no byte at position 0. -/
  | emptyFrame
  /-- The byte at position 0 is neither `HDR_CMD` nor `HDR_ACK`. -/
  | unknownHeader
  /-- The number of bytes is not that of the header's format (R64). -/
  | wrongByteCount
  /-- The command id of a command frame is not `CMD_ID`. -/
  | wrongCommandId
  /-- The length field is not the constant of the format. -/
  | wrongLengthField
  /-- The payload byte of a response frame is not its command id. -/
  | payloadNotEcho
deriving DecidableEq, Repr

/-- A command word, always an instruction: both values of `cw[32]` are assigned (R50, R63). -/
def decodeCommand (cw : CommandWord) : Instr :=
  match Machine.cwOp cw with
  | .encCmd => .encCmd (Machine.cwBri cw) (Machine.cwCt cw) (Machine.cwDuv cw)
  | .encRsp => .encRsp (Machine.cwIgn cw) (Machine.cwCid cw)

/-- The bytes of a command frame after its header (R54). -/
def decodeCmdFrame : List Byte → Except DecodeError Instr
  | [id, len, high, low, ct, duv, sum] =>
    if id != Config.protocol.cmdId then .error .wrongCommandId
    else if len != Config.protocol.lenCmd then .error .wrongLengthField
    else .ok (.cmdFrame high low ct duv sum)
  | _ => .error .wrongByteCount

/-- The bytes of a response frame after its header (R56). -/
def decodeRspFrame : List Byte → Except DecodeError Instr
  | [cid, len, payload, sum] =>
    if len != Config.protocol.lenRsp then .error .wrongLengthField
    else if payload != cid then .error .payloadNotEcho
    else .ok (.rspFrame cid sum)
  | _ => .error .wrongByteCount

/-- The bytes of a frame, position 0 first: the header tells the two formats apart (R64). -/
def decodeFrame : List Byte → Except DecodeError Instr
  | [] => .error .emptyFrame
  | header :: rest =>
    if header = Config.protocol.hdrCmd then decodeCmdFrame rest
    else if header = Config.protocol.hdrAck then decodeRspFrame rest
    else .error .unknownHeader

/-- The instruction that an encoded item stands for. -/
def decode : Image → Except DecodeError Instr
  | .command cw => .ok (decodeCommand cw)
  | .frame bytes => decodeFrame bytes

/-- The full recogniser of frames: the constant bytes, and also the checksum byte and the operand ranges (the notes of
the frame rows of spec/opcode_table.json). -/
def recogniseFrame (bytes : List Byte) : Option Instr :=
  match decodeFrame bytes with
  | .ok i => if wellFormed i then some i else none
  | .error _ => none

/-! ### The encoder -/

/-- The command word or the frame bytes of an instruction (R51, R54, R56). -/
def encode : Instr → Image
  | .encCmd bri ct duv => .command (0#1 ++ bri ++ ct ++ duv)
  | .encRsp ign cid => .command (1#1 ++ ign ++ cid)
  | .cmdFrame high low ct duv sum =>
    .frame [Config.protocol.hdrCmd, Config.protocol.cmdId, Config.protocol.lenCmd, high, low, ct, duv,
      sum]
  | .rspFrame cid sum =>
    .frame [Config.protocol.hdrAck, cid, Config.protocol.lenRsp, cid, sum]

/-- `ENC_RSP cid` with no `ign=` is assembled with zeros in `cw[31:8]` (R65). -/
def assembleEncRsp (cid : Byte) : Instr := .encRsp 0 cid

/-! ### The opcode table's words -/

/-- A row of spec/opcode_table.json: its width, match and mask, over one number. -/
structure TableRow where
  width : Nat
  mask : Nat
  pattern : Nat
deriving DecidableEq, Repr

/-- The row of an instruction, as the table gives it. -/
def tableRow : Instr → TableRow
  | .encCmd _ _ _ => { width := 33, mask := 0x100000000, pattern := 0x000000000 }
  | .encRsp _ _ => { width := 33, mask := 0x100000000, pattern := 0x100000000 }
  | .cmdFrame _ _ _ _ _ => { width := 64, mask := 0xFFFFFF0000000000, pattern := 0x01A0040000000000 }
  | .rspFrame _ _ => { width := 40, mask := 0xFF00FF0000, pattern := 0x0600040000 }

/-- Bytes as one number with byte 0 the most significant (the notes of the frame rows). -/
def bytesToNat (bytes : List Byte) : Nat := bytes.foldl (fun n b => n * 256 + b.toNat) 0

/-- The first `n` bytes of a number of `8 * n` bits, byte 0 the most significant. -/
def natToBytes : Nat → Nat → List Byte
  | 0, _ => []
  | n + 1, w => BitVec.ofNat 8 (w >>> (8 * n)) :: natToBytes n w

/-- An encoded item as the number that the table's match and mask are over. -/
def imageToNat : Image → Nat
  | .command cw => cw.toNat
  | .frame bytes => bytesToNat bytes

/-- The encoded item that a table word of `nbits` bits stands for: a 33-bit command word (40 bits in whole bytes, the
upper 7 zero), a 5-byte frame or an 8-byte frame (DEDUCED, notes/assumptions/7.md). A 5-byte frame of the block is
above every command word, since its byte 0 is `0x06`. -/
def tableImage (nbits w : Nat) : Option Image :=
  if (nbits = 33 ∨ nbits = 40) ∧ w < 2 ^ 33 then some (.command (BitVec.ofNat 33 w))
  else if nbits = 40 ∧ w < 2 ^ 40 then some (.frame (natToBytes 5 w))
  else if nbits = 64 ∧ w < 2 ^ 64 then some (.frame (natToBytes 8 w))
  else none

/-- The instruction that the decoder reads from a word numbered as spec/opcode_table.json numbers it. -/
def decodeTableWord (nbits w : Nat) : Option Instr :=
  match tableImage nbits w with
  | some image =>
    match decode image with
    | .ok i => some i
    | .error _ => none
  | none => none

end Sys2Proof
end

