-- ==== Sys2Proof/Machine/Fetch.lean ====
section
/-!
DEFINITION. Where the next instruction comes from. The hardware fetches nothing from a memory (spec/10_state.md R13;
spec/20_memory.md R41): in `IDLE` the command port shows the next command word, in `SEND` the latch holds the frame in
progress.
-/

namespace Sys2Proof.Machine

/-- The frame in progress, as an instruction: the frame of the latched operation and operands (R60). -/
def frameInFlight (r : Regs) : Instr :=
  match r.opr with
  | .encCmd =>
    .cmdFrame (opdHigh r.opd) (opdLow r.opd) (opdCt r.opd) (opdDuv r.opd)
      (checksum (body .encCmd r.opd))
  | .encRsp => .rspFrame (opdCid r.opd) (checksum (body .encRsp r.opd))

/-- The state with another sample for the next step; the samples after it stay. -/
def State.withInput (s : State) (i : Input) : State := { s with inputs := i :: s.inputs.tail }

/-- The state in which the requester presents `cw` in the next step; `rst` and `tx_ready` stay as they are. -/
def State.present (s : State) (cw : CommandWord) : State :=
  s.withInput { s.input with cmdValid := true, cw := cw }

/-- The registers in `IDLE`; those of a frame in progress as its last transfer would leave them (R126). -/
def idleRegs (r : Regs) : Regs :=
  match r.st with
  | .idle => r
  | .send => { r with st := .idle, idx := 0, acc := 0x00 }

/-- `cw` presented so that the next step samples it: no reset, and the block in `IDLE`. -/
def State.fetchCommand (s : State) (cw : CommandWord) : State :=
  { s.withInput { s.input with rst := false, cmdValid := true, cw := cw } with
    regs := idleRegs s.regs }

/-- A frame at its first byte, as its accept leaves it (R123), with a sink that takes the byte. -/
def State.fetchFrame (s : State) (op : Operation) (opd : OperandWord) : State :=
  { s.withInput { s.input with rst := false, txReady := true } with
    regs := { st := .send, idx := 0, acc := 0x00, opr := op, opd := opd } }

/-- An instruction placed where the next step takes its instruction from. -/
def State.fetchInstr (s : State) (cw : CommandWord) : Instr → State
  | .encCmd _ _ _ => s.fetchCommand cw
  | .encRsp _ _ => s.fetchCommand cw
  | .cmdFrame high low ct duv _ => s.fetchFrame .encCmd (cmdOpd (high ++ low) ct duv)
  | .rspFrame cid _ => s.fetchFrame .encRsp (rspOpd (s.regs.opd.extractLsb' 8 24) cid)

/-- An encoded item placed so; bytes that are no frame of the block have no such place. -/
def State.fetchImage (s : State) : Image → State
  | .command cw => s.fetchInstr cw (decodeCommand cw)
  | .frame bytes =>
    match decodeFrame bytes with
    | .ok i => s.fetchInstr 0 i
    | .error _ => s

end Sys2Proof.Machine
end

