-- ==== Sys2Proof/Machine/Step.lean ====
section
/-!
DEFINITION. The step function (spec/43_sequencer.md R120) and the host's way to place an instruction.
-/

namespace Sys2Proof.Machine

/-- One active clock edge (R120): reset overrides all; in `IDLE` a presented command word is decoded and run; in `SEND`
the frame in progress is run. -/
def step (s : State) : Host.Outcome State Fault Refusal :=
  if s.input.rst then .next (resetStep s)
  else match s.regs.st with
    | .idle => if s.input.cmdValid then exec (decodeCommand s.input.cw) s else .next (idleWait s)
    | .send => exec (frameInFlight s.regs) s

/-- The instruction of a table word, placed where the next step takes its instruction from (notes/assumptions/11.md). -/
def State.withFetchWord (s : State) (nbits w : Nat) : State :=
  match tableImage nbits w with
  | some image => s.fetchImage image
  | none => s

end Sys2Proof.Machine
end

