-- ==== Sys2Proof/Machine/Transaction.lean ====
section
/-!
DEFINITION. The function level: what the operations compute, without steps (spec/41_enc_cmd.md R91;
spec/42_enc_rsp.md R111), and the transaction-level machine made of them (spec/43_sequencer.md R133). No step of the
machine calls these: statements compare the step machine with them.
-/

namespace Sys2Proof.Machine

/-- What an operation answers: a whole frame, or a rejection with its cause. -/
inductive EncodeResult where
  | accepted (frame : List Byte)
  | rejected (cause : BitVec 3)
deriving DecidableEq, Repr

/-- `EncodeCommand(bri, ct, duv)` (R91). -/
def encodeCommand (bri : BitVec 16) (ct duv : Byte) : EncodeResult :=
  if bri.toNat ≤ 1000 ∧ (1 ≤ ct.toNat ∧ ct.toNat ≤ 61) ∧ 1 ≤ duv.toNat ∧ duv.toNat ≤ 5 then
    .accepted [0x01, 0xA0, 0x04, briHigh bri, briLow bri, ct, duv,
      0xA5 + briHigh bri + briLow bri + ct + duv]
  else .rejected (rangeCause (commandWord .encCmd (cmdOpd bri ct duv)))

/-- `EncodeResponse(cid)` (R111). It is total. -/
def encodeResponse (cid : Byte) : List Byte := [0x06, cid, 0x04, cid, 0x0A + 2 * cid]

/-- The transaction-level machine (R133): no state, a command word in, a frame or a rejection out. -/
def transact (cw : CommandWord) : EncodeResult :=
  match cwOp cw with
  | .encCmd => encodeCommand (cwBri cw) (cwCt cw) (cwDuv cw)
  | .encRsp => .accepted (encodeResponse (cwCid cw))

end Sys2Proof.Machine
end

