-- ==== Sys2Proof/Safety.lean ====
section
/-!
DEFINITION. What counts as a safe run: the invariants of the reachable states (spec/10_state.md R22), the order of events
that the output link can show (spec/20_memory.md R38; spec/43_sequencer.md R131, R132; spec/60_exceptions.md R159), the
frames and results of a run, and what is assumed of the environment (spec/92_eei_decisions.md D25).
-/

namespace Sys2Proof.Machine

/-- The invariants of R22, in its order. -/
abbrev Regs.Inv (r : Regs) : Prop :=
  (r.st = .idle → r.idx = 0 ∧ r.acc = 0x00) ∧
  (r.st = .send → r.idx ≤ lastIdx r.opr) ∧
  (r.st = .send → r.acc = checksum ((frame r.opr r.opd).take r.idx.toNat)) ∧
  (r.st = .send → r.opr = .encCmd →
    (opdBri r.opd).toNat ≤ 1000 ∧ (1 ≤ (opdCt r.opd).toNat ∧ (opdCt r.opd).toNat ≤ 61) ∧
      1 ≤ (opdDuv r.opd).toNat ∧ (opdDuv r.opd).toNat ≤ 5)

/-! ### The order of events -/

/-- What an observer of the events knows of the block: nothing in progress, or the frame of `(op, opd)` with its first
`sent` bytes transferred. -/
inductive Link where
  | idle
  | sending (op : Operation) (opd : OperandWord) (sent : Nat)
deriving DecidableEq, Repr

/-- What an event makes of it; `none` where that event may not come now. A command is accepted only when nothing is in
progress and its operands are in range; it is rejected only then and with its own non-zero cause; a byte leaves only
when it is the next byte of the frame in progress, with `last` on its last byte and on no other. -/
def Link.after (l : Link) (e : Event) : Option Link :=
  match e, l with
  | .reset, _ => some .idle
  | .accept op opd, .idle =>
    if rangeCause (commandWord op opd) = 0 then some (.sending op opd 0) else none
  | .reject cw cause, .idle =>
    if cause = rangeCause cw ∧ cause ≠ 0 then some .idle else none
  | .tx b last, .sending op opd sent =>
    if (frame op opd)[sent]? = some b ∧ last = decide (sent + 1 = frameLength op) then
      some (if last then .idle else .sending op opd (sent + 1))
    else none
  | _, _ => none

/-- What the observer knows after a list of events, `none` if one of them came out of order. -/
def history (es : List Event) : Option Link :=
  es.foldl (fun l e => l.bind fun l => l.after e) (some .idle)

/-- What the registers say of the same thing. -/
def Regs.link (r : Regs) : Link :=
  match r.st with
  | .idle => .idle
  | .send => .sending r.opr r.opd r.idx.toNat

/-- The invariant of a run: R22, and every event so far came in order and agrees with the registers. -/
def State.Inv (s : State) : Prop := s.regs.Inv ∧ history s.events = some s.regs.link

/-! ### The frames and the results of a run -/

/-- The results that events show, `sent` being the bytes of the frame begun before them: a frame ends with its `last`
byte; one cut short by a reset is none (R131). -/
def resultsFrom (sent : List Byte) : List Event → List EncodeResult
  | [] => []
  | .tx b false :: es => resultsFrom (sent ++ [b]) es
  | .tx b true :: es => .accepted (sent ++ [b]) :: resultsFrom [] es
  | .reject _ cause :: es => .rejected cause :: resultsFrom [] es
  | .accept _ _ :: es => resultsFrom [] es
  | .reset :: es => resultsFrom [] es

/-- The frames and rejections of a run, in order. -/
def results (es : List Event) : List EncodeResult := resultsFrom [] es

/-- The command words that a run sampled, in order. -/
def commands : List Event → List CommandWord
  | [] => []
  | .accept op opd :: es => commandWord op opd :: commands es
  | .reject cw _ :: es => cw :: commands es
  | .tx _ _ :: es => commands es
  | .reset :: es => commands es

/-- The events of the transfers of a frame: each byte once, in order, the last one marked (R132). -/
def frameEvents (op : Operation) (opd : OperandWord) : List Event :=
  (body op opd).map (fun b => .tx b false) ++ [.tx (checksum (body op opd)) true]

/-! ### The environment -/

/-- A state with its next samples taken from a list; after them they are free again. -/
def State.withInputs (s : State) (inputs : List Input) : State := { s with inputs := inputs }

/-- How many of the next `n` steps have `tx_ready = 1`. -/
def State.readySteps (s : State) (n : Nat) : Nat :=
  ((List.range n).filter fun k => (s.inputAt k).txReady).length

/-- Of the next `n` steps none is a reset step. -/
def State.NoReset (s : State) (n : Nat) : Prop := ∀ k, k < n → (s.inputAt k).rst = false

/-- `SinkFair` (D25) of an input sequence: after every step there is one with `tx_ready = 1`. The other half of D25, that
reset is not asserted for ever, is given to a liveness claim as `NeverReset` (notes/assumptions/12.md). -/
def SinkFair (f : Nat → Input) : Prop := ∀ k, ∃ m, k ≤ m ∧ (f m).txReady = true

/-- An input sequence that never asserts reset. -/
def NeverReset (f : Nat → Input) : Prop := ∀ k, (f k).rst = false

/-- The first `n` samples of an input sequence. -/
def samples (f : Nat → Input) (n : Nat) : List Input := (List.range n).map f

end Sys2Proof.Machine
end

