-- ==== Sys2Proof/Certificates/Slice0/Obligations.lean ====
section
/-!
DEFINITION. The statements for the provers. `s.input` is the sample of the input ports that the next step takes and
`s.output` the output ports in that step; a statement about a step therefore holds for every input. What becomes of
the model's own fields `inputs` and `tick` is said once, in `StepUsesOneSampleAndAddsAtMostOneEvent`
(notes/assumptions/1.md, 2.md, 3.md). The hardware has no memory (R30), so no statement speaks of one.
-/

open Sys2Proof Sys2Proof.Machine

/-! ### The arms of the step function -/

/-- R121, R171: a step with `rst = 1` gives the reset state of R23 from any state, shows zero on every output and
records `Reset`. -/
def Obligations.ResetArm : Prop :=
  ∀ s : State, s.input.rst = true →
    ∃ t, step s = .next t ∧
      t.regs = { st := .idle, idx := 0, acc := 0x00, opr := .encCmd, opd := 0x00000000 } ∧
      t.events = s.events ++ [.reset] ∧
      s.output = some { cmdReady := false, rej := false, rejCause := 0b000, txValid := false,
                        txData := 0x00, txLast := false }

/-- R122. -/
def Obligations.IdleWaitArm : Prop :=
  ∀ s : State, s.input.rst = false → s.regs.st = .idle → s.input.cmdValid = false →
    ∃ t, step s = .next t ∧ t.regs = s.regs ∧ t.events = s.events ∧
      s.output = some { cmdReady := true, rej := false, rejCause := 0b000, txValid := false,
                        txData := 0x00, txLast := false }

/-- R123: the new value of every register, the outputs and the event; and the first byte of the frame, its header
(R54, R56), is offered in the next step, whatever else is driven on the inputs then. -/
def Obligations.AcceptArm : Prop :=
  ∀ s : State, s.input.rst = false → s.regs.st = .idle → s.input.cmdValid = true →
    rangeCause s.input.cw = 0b000 →
    ∃ t, step s = .next t ∧
      t.regs = { st := .send, idx := 0, acc := 0x00,
                 opr := if s.input.cw.getLsbD 32 then .encRsp else .encCmd,
                 opd := s.input.cw.extractLsb' 0 32 } ∧
      t.events = s.events ++ [.accept (if s.input.cw.getLsbD 32 then .encRsp else .encCmd)
        (s.input.cw.extractLsb' 0 32)] ∧
      s.output = some { cmdReady := true, rej := false, rejCause := 0b000, txValid := false,
                        txData := 0x00, txLast := false } ∧
      ∀ j : Input, j.rst = false →
        (t.withInput j).output =
          some { cmdReady := false, rej := false, rejCause := 0b000, txValid := true,
                 txData := if s.input.cw.getLsbD 32 then 0x06 else 0x01, txLast := false }

/-- R124, with what it says of the same word presented again: another rejection with the same outputs. -/
def Obligations.RejectArm : Prop :=
  ∀ s : State, s.input.rst = false → s.regs.st = .idle → s.input.cmdValid = true →
    rangeCause s.input.cw ≠ 0b000 →
    ∃ t, step s = .next t ∧ t.regs = s.regs ∧
      t.events = s.events ++ [.reject s.input.cw (rangeCause s.input.cw)] ∧
      s.output = some { cmdReady := true, rej := true, rejCause := rangeCause s.input.cw,
                        txValid := false, txData := 0x00, txLast := false } ∧
      ∀ j : Input, j.rst = false → j.cmdValid = true → j.cw = s.input.cw →
        (t.withInput j).output = s.output ∧
        ∃ u, step (t.withInput j) = .next u ∧ u.regs = s.regs ∧
          u.events = t.events ++ [.reject s.input.cw (rangeCause s.input.cw)]

/-- R125, R84: a transfer that is not the last adds its byte to the accumulator and moves the index on. -/
def Obligations.SendNextArm : Prop :=
  ∀ (s : State) (b : Byte), s.input.rst = false → s.regs.st = .send → s.input.txReady = true →
    s.regs.idx ≠ lastIdx s.regs.opr →
    field s.regs.opr s.regs.idx s.regs.opd s.regs.acc = some b →
    ∃ t, step s = .next t ∧
      t.regs = { st := .send, idx := s.regs.idx + 1, acc := s.regs.acc + b, opr := s.regs.opr,
                 opd := s.regs.opd } ∧
      t.events = s.events ++ [.tx b false] ∧
      s.output = some { cmdReady := false, rej := false, rejCause := 0b000, txValid := true,
                        txData := b, txLast := false }

/-- R126, R85: the last transfer sends the accumulator itself and clears it. -/
def Obligations.SendLastArm : Prop :=
  ∀ s : State, s.input.rst = false → s.regs.st = .send → s.input.txReady = true →
    s.regs.idx = lastIdx s.regs.opr →
    ∃ t, step s = .next t ∧
      t.regs = { st := .idle, idx := 0, acc := 0x00, opr := s.regs.opr, opd := s.regs.opd } ∧
      t.events = s.events ++ [.tx s.regs.acc true] ∧
      s.output = some { cmdReady := false, rej := false, rejCause := 0b000, txValid := true,
                        txData := s.regs.acc, txLast := true }

/-- R127: a stall changes no register and records nothing, and the same outputs appear in the next step, whatever else
is driven on the inputs. -/
def Obligations.StallArm : Prop :=
  ∀ (s : State) (b : Byte), s.input.rst = false → s.regs.st = .send → s.input.txReady = false →
    field s.regs.opr s.regs.idx s.regs.opd s.regs.acc = some b →
    ∃ t, step s = .next t ∧ t.regs = s.regs ∧ t.events = s.events ∧
      s.output = some { cmdReady := false, rej := false, rejCause := 0b000, txValid := true,
                        txData := b, txLast := decide (s.regs.idx = lastIdx s.regs.opr) } ∧
      ∀ j : Input, j.rst = false → (t.withInput j).output = s.output

/-- R129 with U1 and D21: the step has no result in exactly the states in which `Field` has no row, unless reset is
asserted; everywhere else it has a next state. That the step then faults is the treatment U1 asks for
(notes/assumptions/9.md). -/
def Obligations.StepFaultsExactlyWhereFieldHasNoRow : Prop :=
  ∀ s : State,
    (s.input.rst = false ∧ s.regs.st = .send ∧ s.regs.opr = .encRsp ∧ 5 ≤ s.regs.idx.toNat →
      step s = .fault .undefinedField ∧ s.output = none) ∧
    (¬(s.input.rst = false ∧ s.regs.st = .send ∧ s.regs.opr = .encRsp ∧ 5 ≤ s.regs.idx.toNat) →
      (∃ t, step s = .next t) ∧ ∃ o, s.output = some o)

/-- What a step does with the model's own fields (the model's choice, notes/assumptions/1.md, 2.md, 3.md): it uses one
sample, and its events are those before it and at most one more (R131, D28). The same holds of every instruction. -/
def Obligations.StepUsesOneSampleAndAddsAtMostOneEvent : Prop :=
  ∀ s t : State, (step s = .next t ∨ ∃ i, exec i s = .next t) →
    t.inputs = s.inputs.tail ∧ t.tick = s.tick + 1 ∧ (∀ k, t.inputAt k = s.inputAt (k + 1)) ∧
    ∃ e : List Event, e.length ≤ 1 ∧ t.events = s.events ++ e

/-- R128: two samples that agree on the inputs an arm reads give the same outputs and the same step. -/
def Obligations.InputsThatAnArmDoesNotReadDoNotMatter : Prop :=
  ∀ (s : State) (i j : Input), i.rst = j.rst →
    (i.rst = false → s.regs.st = .idle →
      i.cmdValid = j.cmdValid ∧ (i.cmdValid = true → i.cw = j.cw)) →
    (i.rst = false → s.regs.st = .send → i.txReady = j.txReady) →
    step (s.withInput i) = step (s.withInput j) ∧
      (s.withInput i).output = (s.withInput j).output

/-! ### A step runs the instruction that is there -/

/-- In `IDLE` a presented command word is decoded and run, with nothing added around it. -/
def Obligations.StepRunsPresentedCommand : Prop :=
  ∀ (s : State) (i : Instr), s.input.rst = false → s.regs.st = .idle → s.input.cmdValid = true →
    decode (.command s.input.cw) = .ok i → step s = exec i s

/-- In `SEND` the frame of the latched operation and operands is run. That a `SEND` step is `exec` of a frame instruction
is the model's choice (DESIGN CHOICE, notes/assumptions/5.md): R120 and R60 say which bytes leave, and the table calls
the frames output formats. -/
def Obligations.StepRunsFrameInProgress : Prop :=
  ∀ (s : State) (i : Instr), s.input.rst = false → s.regs.st = .send →
    decode (.frame (frame s.regs.opr s.regs.opd)) = .ok i → step s = exec i s

/-- The model's reading of `exec` of an operation (DEDUCED, notes/assumptions/13.md), not a rule of the spec: it is the
step in which the operation's word is presented, in every phase and in reset too. What that step does is R120's; that
the word is not read in `SEND` and in reset is R128's and R156's. -/
def Obligations.ExecOfCommandIsTheStepThatPresentsIt : Prop :=
  ∀ (cw : CommandWord) (i : Instr) (s : State), decode (.command cw) = .ok i →
    exec i s = step (s.present cw)

/-- A word placed by `withFetchWord` (the model's own, notes/assumptions/11.md) is run by the very next step. -/
def Obligations.FetchedWordIsRunNext : Prop :=
  ∀ (s : State) (nbits w : Nat) (i : Instr), decodeTableWord nbits w = some i →
    step (s.withFetchWord nbits w) = exec i (s.withFetchWord nbits w)

/-! ### What each instruction does, and that it completes -/

/-- `ENC_CMD` with its three operands in range completes: it is accepted and latched whole (R90, R92, R123). -/
def Obligations.EncCmdInRangeIsAccepted : Prop :=
  ∀ (s : State) (bri : BitVec 16) (ct duv : Byte), s.input.rst = false → s.regs.st = .idle →
    bri.toNat ≤ 1000 → 1 ≤ ct.toNat → ct.toNat ≤ 61 → 1 ≤ duv.toNat → duv.toNat ≤ 5 →
    ∃ t, exec (.encCmd bri ct duv) s = .next t ∧
      t.regs = { st := .send, idx := 0, acc := 0x00, opr := .encCmd, opd := bri ++ ct ++ duv } ∧
      t.events = s.events ++ [.accept .encCmd (bri ++ ct ++ duv)]

/-- `ENC_CMD` with any operand out of range raises `Reject` (R99, R124, R151): no register changes, nothing is latched,
and the cause names every broken range. -/
def Obligations.EncCmdOutOfRangeIsRejected : Prop :=
  ∀ (s : State) (bri : BitVec 16) (ct duv : Byte), s.input.rst = false → s.regs.st = .idle →
    ¬(bri.toNat ≤ 1000 ∧ (1 ≤ ct.toNat ∧ ct.toNat ≤ 61) ∧ 1 ≤ duv.toNat ∧ duv.toNat ≤ 5) →
    ∃ (t : State) (cause : BitVec 3), exec (.encCmd bri ct duv) s = .next t ∧ t.regs = s.regs ∧
      t.events = s.events ++ [.reject (0#1 ++ bri ++ ct ++ duv) cause] ∧
      cause ≠ 0 ∧
      cause.getLsbD 0 = decide (1000 < bri.toNat) ∧
      cause.getLsbD 1 = decide (ct.toNat = 0 ∨ 61 < ct.toNat) ∧
      cause.getLsbD 2 = decide (duv.toNat = 0 ∨ 5 < duv.toNat)

/-- `ENC_RSP` completes for every command id and all ignored bits (R53, R110, R123): never rejected, latched whole. -/
def Obligations.EncRspIsAlwaysAccepted : Prop :=
  ∀ (s : State) (ign : BitVec 24) (cid : Byte), s.input.rst = false → s.regs.st = .idle →
    ∃ t, exec (.encRsp ign cid) s = .next t ∧
      t.regs = { st := .send, idx := 0, acc := 0x00, opr := .encRsp, opd := ign ++ cid } ∧
      t.events = s.events ++ [.accept .encRsp (ign ++ cid)]

/-- `CMD_FRAME` in progress with a ready sink completes its step at every position: the byte of that position leaves
(the accumulator at position 7), and the registers move on (R54, R58, R125, R126). That the meaning is one step of
the frame is the model's choice (notes/assumptions/5.md). -/
def Obligations.CmdFrameInProgressSendsItsByte : Prop :=
  ∀ (s : State) (high low ct duv sum : Byte), s.input.rst = false → s.regs.st = .send →
    s.regs.opr = .encCmd → s.regs.opd = high ++ low ++ ct ++ duv → s.input.txReady = true →
    ∃ (t : State) (b : Byte), exec (.cmdFrame high low ct duv sum) s = .next t ∧
      [0x01, 0xA0, 0x04, high, low, ct, duv, s.regs.acc][s.regs.idx.toNat]? = some b ∧
      t.events = s.events ++ [.tx b (decide (s.regs.idx.toNat = 7))] ∧
      t.regs =
        (if s.regs.idx.toNat = 7 then { s.regs with st := .idle, idx := 0, acc := 0x00 }
         else { s.regs with idx := s.regs.idx + 1, acc := s.regs.acc + b })

/-- `RSP_FRAME` in progress with a ready sink completes its step at each of its five positions (R56, R58, R125, R126);
at the positions it does not have, it faults, the sink ready or not (U1). That the meaning is one step of the frame is the
model's choice
(notes/assumptions/5.md). -/
def Obligations.RspFrameInProgressSendsItsByte : Prop :=
  ∀ (s : State) (cid sum : Byte), s.input.rst = false → s.regs.st = .send →
    s.regs.opr = .encRsp → s.regs.opd.extractLsb' 0 8 = cid →
    (s.regs.idx.toNat ≤ 4 → s.input.txReady = true →
      ∃ (t : State) (b : Byte), exec (.rspFrame cid sum) s = .next t ∧
        [0x06, cid, 0x04, cid, s.regs.acc][s.regs.idx.toNat]? = some b ∧
        t.events = s.events ++ [.tx b (decide (s.regs.idx.toNat = 4))] ∧
        t.regs =
          (if s.regs.idx.toNat = 4 then { s.regs with st := .idle, idx := 0, acc := 0x00 }
           else { s.regs with idx := s.regs.idx + 1, acc := s.regs.acc + b })) ∧
    (5 ≤ s.regs.idx.toNat → exec (.rspFrame cid sum) s = .fault .undefinedField)

/-- Frame of the two frame instructions: outside reset they change neither the latched operation nor the latched
operands; while the sink is not ready they change no register and record nothing; otherwise they record one transfer
(R11, R125 to R127). That `exec` of a frame instruction is one step of that frame, and so records one transfer and not
the whole frame, is the model's choice (DESIGN CHOICE, notes/assumptions/5.md). -/
def Obligations.FrameStepsKeepTheLatch : Prop :=
  ∀ (s t : State) (i : Instr),
    ((∃ high low ct duv sum, i = .cmdFrame high low ct duv sum) ∨ ∃ cid sum, i = .rspFrame cid sum) →
    s.input.rst = false → exec i s = .next t →
    t.regs.opr = s.regs.opr ∧ t.regs.opd = s.regs.opd ∧
    (s.input.txReady = false → t.regs = s.regs ∧ t.events = s.events) ∧
    (s.input.txReady = true → ∃ b last, t.events = s.events ++ [.tx b last] ∧
      (last = false → t.regs.st = s.regs.st))

/-- Frame of the two operations while a frame is in progress: the command is neither accepted, rejected nor remembered,
whatever its operands (R128, R153, R176). The clause `exec i s = exec j s` is the model's choice: that `exec` of an
operation in `SEND` is the step of that state (DEDUCED, notes/assumptions/13.md), and that the step is `exec` of the frame
in progress (DESIGN CHOICE, notes/assumptions/5.md). -/
def Obligations.CommandWhileSendingIsIgnored : Prop :=
  ∀ (s : State) (i j : Instr) (cw : CommandWord), s.input.rst = false → s.regs.st = .send →
    decode (.command cw) = .ok i → decode (.frame (frame s.regs.opr s.regs.opd)) = .ok j →
    exec i s = exec j s ∧
    ∀ t, exec i s = .next t →
      t.regs.opr = s.regs.opr ∧ t.regs.opd = s.regs.opd ∧
      (∀ op opd, t.events ≠ s.events ++ [.accept op opd]) ∧
      ∀ w cause, t.events ≠ s.events ++ [.reject w cause]

/-- A frame that is not in progress is not sent (the model's choice of how it stops, notes/assumptions/5.md; R63, R99):
the two frame instructions are refused in exactly the states in which, outside reset, another frame or none is in
progress. -/
def Obligations.FrameNotInProgressIsRefused : Prop :=
  ∀ (s : State) (high low ct duv cid sum : Byte),
    (exec (.cmdFrame high low ct duv sum) s = .refused .frameNotInFlight ↔
      s.input.rst = false ∧
        ¬(s.regs.st = .send ∧ s.regs.opr = .encCmd ∧ s.regs.opd = high ++ low ++ ct ++ duv)) ∧
    (exec (.rspFrame cid sum) s = .refused .frameNotInFlight ↔
      s.input.rst = false ∧
        ¬(s.regs.st = .send ∧ s.regs.opr = .encRsp ∧ s.regs.opd.extractLsb' 0 8 = cid))

/-- Whole-machine rule of R11: the latch is written by an accept and by reset, and by nothing else, whichever
instruction runs; what `exec` of each row is, is the model's choice (notes/assumptions/5.md, 13.md). -/
def Obligations.LatchIsWrittenOnlyByAcceptAndReset : Prop :=
  ∀ (i : Instr) (s t : State), exec i s = .next t →
    (t.regs.opr = s.regs.opr ∧ t.regs.opd = s.regs.opd) ∨
    (t.events = s.events ++ [.reset] ∧ t.regs.opr = .encCmd ∧ t.regs.opd = 0) ∨
    t.events = s.events ++ [.accept t.regs.opr t.regs.opd]

/-- Every instruction takes the reset step when `rst = 1` (R156, R170). That `exec` of an instruction includes that step
is the model's choice (notes/assumptions/5.md, 13.md). -/
def Obligations.ResetOverridesEveryInstruction : Prop :=
  ∀ (i : Instr) (s : State), s.input.rst = true →
    ∃ t, exec i s = .next t ∧ t.regs = Regs.reset ∧ t.events = s.events ++ [.reset]

/-! ### The outputs -/

/-- R150, R151: when `rej` is raised, and every bit of the cause. -/
def Obligations.RejectIsRaisedExactlyWhen : Prop :=
  ∀ (r : Regs) (i : Input) (o : Output), outputs r i = some o →
    (o.rej = true ↔
      r.st = .idle ∧ i.cmdValid = true ∧ i.rst = false ∧ i.cw.getLsbD 32 = false ∧
        (1000 < (i.cw.extractLsb' 16 16).toNat ∨
          ((i.cw.extractLsb' 8 8).toNat = 0 ∨ 61 < (i.cw.extractLsb' 8 8).toNat) ∨
          (i.cw.extractLsb' 0 8).toNat = 0 ∨ 5 < (i.cw.extractLsb' 0 8).toNat)) ∧
    (o.rej = true ↔ o.rejCause ≠ 0b000) ∧
    (o.rej = true →
      o.rejCause.getLsbD 0 = decide (1000 < (i.cw.extractLsb' 16 16).toNat) ∧
      o.rejCause.getLsbD 1 =
        decide ((i.cw.extractLsb' 8 8).toNat = 0 ∨ 61 < (i.cw.extractLsb' 8 8).toNat) ∧
      o.rejCause.getLsbD 2 =
        decide ((i.cw.extractLsb' 0 8).toNat = 0 ∨ 5 < (i.cw.extractLsb' 0 8).toNat))

/-- R18, R186: every output but `rej` and `rej_cause` depends on the registers and `rst` only. -/
def Obligations.OnlyTheRejectionDependsOnTheCommandPort : Prop :=
  ∀ (r : Regs) (i j : Input) (o p : Output), i.rst = j.rst → outputs r i = some o →
    outputs r j = some p →
    o.cmdReady = p.cmdReady ∧ o.txValid = p.txValid ∧ o.txData = p.txData ∧ o.txLast = p.txLast

/-- R34: an offered byte is transferred in the step exactly when `tx_ready = 1`; otherwise no register changes and the
same byte with the same `tx_last` is offered again, unless reset intervenes. -/
def Obligations.ByteIsTransferredExactlyWhenSinkIsReady : Prop :=
  ∀ (s t : State) (o : Output), s.output = some o → step s = .next t →
    (∀ (b : Byte) (last : Bool), t.events = s.events ++ [.tx b last] ↔
      o.txValid = true ∧ s.input.txReady = true ∧ b = o.txData ∧ last = o.txLast) ∧
    (o.txValid = true → s.input.txReady = false →
      t.regs = s.regs ∧ t.events = s.events ∧
      ∀ j : Input, j.rst = false → ∃ p, (t.withInput j).output = some p ∧
        p.txValid = true ∧ p.txData = o.txData ∧ p.txLast = o.txLast)

/-! ### The range check -/

/-- R92: the three bits of `RangeCause`, every test made, all bounds inclusive. -/
def Obligations.RangeCauseBits : Prop :=
  ∀ cw : CommandWord,
    (cw.getLsbD 32 = true → rangeCause cw = 0b000) ∧
    (cw.getLsbD 32 = false →
      (rangeCause cw).getLsbD 0 = decide (1000 < (cw.extractLsb' 16 16).toNat) ∧
      (rangeCause cw).getLsbD 1 =
        decide ((cw.extractLsb' 8 8).toNat = 0 ∨ 61 < (cw.extractLsb' 8 8).toNat) ∧
      (rangeCause cw).getLsbD 2 =
        decide ((cw.extractLsb' 0 8).toNat = 0 ∨ 5 < (cw.extractLsb' 0 8).toNat))

/-- R93: the 16-bit two's-complement pattern of a negative brightness is always rejected with bit 0 of the cause. -/
def Obligations.NegativeBrightnessPatternIsRejected : Prop :=
  ∀ (x : Int) (ct duv : Byte), -32768 ≤ x → x < 0 →
    (rangeCause (0#1 ++ BitVec.ofInt 16 x ++ ct ++ duv)).getLsbD 0 = true

/-! ### The checksum and the frames -/

/-- R80. -/
def Obligations.ChecksumIsSumModulo256 : Prop :=
  checksum [] = 0x00 ∧
  (∀ (l : List Byte) (b : Byte), checksum (l ++ [b]) = checksum l + b) ∧
  (∀ l : List Byte, (checksum l).toNat = (l.map BitVec.toNat).sum % 256) ∧
  (∀ b : Byte, checksum [b] = b) ∧
  checksum [0x01, 0xA0, 0x04, 0x01, 0xF4, 0x14, 0x02] = 0xB0

/-- R81, laws 2 to 8, and R87: a list with one more byte passes a receiver's check exactly when that byte is the checksum
of the list, and the empty list does not pass. -/
def Obligations.ChecksumLaws : Prop :=
  checksum [] = 0x00 ∧
  (∀ l m : List Byte, checksum (l ++ m) = checksum l + checksum m) ∧
  (∀ l m : List Byte, l.Perm m → checksum l = checksum m) ∧
  (∀ l : List Byte, (checksum l).toNat = (l.map BitVec.toNat).sum % 256) ∧
  checksum (List.replicate 256 0xFF) = 0x00 ∧ checksum [0xFF, 0x01] = 0x00 ∧
  (∀ l : List Byte, checksum (l ++ [0x00]) = checksum l) ∧
  (∀ l : List Byte, (checksum (l ++ [checksum l])).toNat = 2 * (checksum l).toNat % 256) ∧
  (∃ l : List Byte, checksum (l ++ [checksum l]) ≠ 0x00) ∧
  (∀ (l : List Byte) (c : Byte), frameValid (l ++ [c]) = true ↔ c = checksum l) ∧
  frameValid [] = false

/-- R60: the frame is what the multiplexer offers position by position, followed by the checksum of that; and it is
spelled out for both operations. -/
def Obligations.FrameIsWhatTheMultiplexerOffers : Prop :=
  ∀ (opd : OperandWord) (acc : Byte),
    (∀ op, ((List.range (lastIdx op).toNat).map fun i => field op (BitVec.ofNat 3 i) opd acc) =
      (body op opd).map some) ∧
    (∀ op, frame op opd = body op opd ++ [checksum (body op opd)]) ∧
    (∃ c : Byte, frame .encCmd opd =
      [0x01, 0xA0, 0x04, opd.extractLsb' 24 8, opd.extractLsb' 16 8, opd.extractLsb' 8 8,
        opd.extractLsb' 0 8, c] ∧
      c.toNat = (0xA5 + (opd.extractLsb' 24 8).toNat + (opd.extractLsb' 16 8).toNat +
        (opd.extractLsb' 8 8).toNat + (opd.extractLsb' 0 8).toNat) % 256) ∧
    (∃ c : Byte, frame .encRsp opd =
      [0x06, opd.extractLsb' 0 8, 0x04, opd.extractLsb' 0 8, c] ∧
      c.toNat = (0x0A + 2 * (opd.extractLsb' 0 8).toNat) % 256)

/-- R57, R115: the checksum of a response frame is even, and `cid` and `cid XOR 0x80` have the same one. -/
def Obligations.ResponseChecksumIsEven : Prop :=
  ∀ cid : Byte, (rspFrameOf cid).checksum.toNat % 2 = 0 ∧
    (rspFrameOf cid).checksum = (rspFrameOf (cid ^^^ 0x80)).checksum

/-- R96: for operands in range the seven-byte sum lies between 167 and 488, and both bounds are reached. -/
def Obligations.CommandSumBounds : Prop :=
  (∀ (bri : BitVec 16) (ct duv : Byte), bri.toNat ≤ 1000 → 1 ≤ ct.toNat → ct.toNat ≤ 61 →
    1 ≤ duv.toNat → duv.toNat ≤ 5 →
    167 ≤ ((body .encCmd (bri ++ ct ++ duv)).map BitVec.toNat).sum ∧
    ((body .encCmd (bri ++ ct ++ duv)).map BitVec.toNat).sum ≤ 488) ∧
  ((body .encCmd (cmdOpd 0 1 1)).map BitVec.toNat).sum = 167 ∧
  ((body .encCmd (cmdOpd 767 61 5)).map BitVec.toNat).sum = 488

/-- R98, R61: brightness, color_temp and duv are read back from a command frame at positions 3 to 6, so equal frames
have equal operands; this holds for every 16-bit brightness. -/
def Obligations.CommandFrameGivesItsOperandsBack : Prop :=
  (∀ (bri : BitVec 16) (ct duv : Byte), ∃ h l : Byte,
    (frame .encCmd (bri ++ ct ++ duv))[3]? = some h ∧
    (frame .encCmd (bri ++ ct ++ duv))[4]? = some l ∧
    (h.toNat <<< 8) ||| l.toNat = bri.toNat ∧
    (frame .encCmd (bri ++ ct ++ duv))[5]? = some ct ∧
    (frame .encCmd (bri ++ ct ++ duv))[6]? = some duv) ∧
  ∀ x y : OperandWord, frame .encCmd x = frame .encCmd y → x = y

/-- R91: the function level of `ENC_CMD` is the frame for operands in range, and a rejection with a non-zero cause
otherwise. -/
def Obligations.EncodeCommandIsTheFrameOrARejection : Prop :=
  ∀ (bri : BitVec 16) (ct duv : Byte),
    (bri.toNat ≤ 1000 ∧ (1 ≤ ct.toNat ∧ ct.toNat ≤ 61) ∧ 1 ≤ duv.toNat ∧ duv.toNat ≤ 5 →
      encodeCommand bri ct duv = .accepted (frame .encCmd (bri ++ ct ++ duv)) ∧
      ∃ c : Byte, encodeCommand bri ct duv =
        .accepted [0x01, 0xA0, 0x04, bri.extractLsb' 8 8, bri.extractLsb' 0 8, ct, duv, c] ∧
        c.toNat = (0xA5 + (bri.extractLsb' 8 8).toNat + (bri.extractLsb' 0 8).toNat + ct.toNat +
          duv.toNat) % 256) ∧
    (¬(bri.toNat ≤ 1000 ∧ (1 ≤ ct.toNat ∧ ct.toNat ≤ 61) ∧ 1 ≤ duv.toNat ∧ duv.toNat ≤ 5) →
      encodeCommand bri ct duv = .rejected (rangeCause (0#1 ++ bri ++ ct ++ duv)) ∧
      rangeCause (0#1 ++ bri ++ ct ++ duv) ≠ 0b000)

/-- R111, R112: the function level of `ENC_RSP` is the frame of any operand word with that command id, whatever stands
in the ignored bits. -/
def Obligations.EncodeResponseIsTheFrame : Prop :=
  ∀ (opd : OperandWord) (cid : Byte), opd.extractLsb' 0 8 = cid →
    encodeResponse cid = frame .encRsp opd ∧
    ∃ c : Byte, encodeResponse cid = [0x06, cid, 0x04, cid, c] ∧
      c.toNat = (0x0A + 2 * cid.toNat) % 256

/-- R154, R62: the configuration of this hardware passes the static length check, a configuration is refused exactly
when its command length field is not the number of payload bytes, and every command frame carries that number of
bytes between its length field and its checksum. -/
def Obligations.CommandLengthFieldCountsThePayload : Prop :=
  Config.build Config.protocol = some Config.protocol ∧
  (∀ p : Config.Protocol, Config.build p = none ↔ p.lenCmd ≠ 4) ∧
  ∀ opd : OperandWord, ((body .encCmd opd).drop 3).length = Config.protocol.lenCmd.toNat

/-! ### Encodings -/

/-- Decoding gives back every instruction from its encoding, with every operand at every value (R51, R54, R56); the
checksum byte of a frame is carried and not checked here (the model's choice, notes/assumptions/8.md). -/
def Obligations.DecodeGivesBackEveryEncodedInstruction : Prop :=
  ∀ i : Instr, decode (encode i) = .ok i

/-- An encoded item stands for at most one instruction, and that instruction's encoding is the item (R63, R66). -/
def Obligations.EveryDecodedItemIsTheEncodingOfItsInstruction : Prop :=
  ∀ (image : Image) (i : Instr), decode image = .ok i → encode i = image

/-- The words of spec/opcode_table.json: the number of an instruction's encoding is read back as that instruction, at
the row's width and at that width in whole bytes. The numbering is the model's reading of the table's notes (DEDUCED,
notes/assumptions/7.md): byte 0 of a frame is the most significant, and a 33-bit command word is also read in 40 bits,
the width in whole bytes, with the upper seven 0. -/
def Obligations.TableWordGivesBackItsInstruction : Prop :=
  ∀ i : Instr,
    decodeTableWord (tableRow i).width (imageToNat (encode i)) = some i ∧
    decodeTableWord (((tableRow i).width + 7) / 8 * 8) (imageToNat (encode i)) = some i

/-- Sanity: words and frames written out in the spec (R110, R116, R123, R124, R101, R117). -/
def Obligations.WrittenOutWordsDecode : Prop :=
  decode (.command 0x001F41402) = .ok (.encCmd 500 20 2) ∧
  decode (.command 0x003E90101) = .ok (.encCmd 1001 1 1) ∧
  decode (.command 0x1000000A0) = .ok (.encRsp 0 0xA0) ∧
  decode (.command 0x1FFFFFFA0) = .ok (.encRsp 0xFFFFFF 0xA0) ∧
  decode (.frame [0x01, 0xA0, 0x04, 0x01, 0xF4, 0x14, 0x02, 0xB0]) =
    .ok (.cmdFrame 0x01 0xF4 0x14 0x02 0xB0) ∧
  decode (.frame [0x06, 0xA0, 0x04, 0xA0, 0x4A]) = .ok (.rspFrame 0xA0 0x4A) ∧
  decode (.frame [0x06, 0xA0, 0x01, 0xA0, 0x47]) = .error .wrongLengthField

/-- R64, R184: the header tells the two formats apart, and three header bytes, the length field's count and a checksum
byte make 8 for both, which is wrong for the response frame. -/
def Obligations.HeaderTellsTheFormatsApart : Prop :=
  ∀ (bytes : List Byte) (i : Instr), decode (.frame bytes) = .ok i →
    ((bytes[0]? = some 0x01 ∧ bytes.length = 8) ∨ (bytes[0]? = some 0x06 ∧ bytes.length = 5)) ∧
    ∃ len : Byte, bytes[2]? = some len ∧ 3 + len.toNat + 1 = 8

/-- Every frame that the block sends of an operation in range is recognised in full, and is well formed (R87; the notes
of the frame rows of spec/opcode_table.json). -/
def Obligations.SentFramesAreRecognised : Prop :=
  ∀ (op : Operation) (opd : OperandWord), rangeCause (commandWord op opd) = 0b000 →
    ∃ i, recogniseFrame (frame op opd) = some i ∧ wellFormed i = true ∧
      encode i = .frame (frame op opd)

/-! ### Invariants -/

/-- R23, R22: the registers at reset, and that the reset state has the invariants. -/
def Obligations.ResetStateHasTheInvariants : Prop :=
  State.reset.regs = { st := .idle, idx := 0, acc := 0x00, opr := .encCmd, opd := 0x00000000 } ∧
    State.reset.Inv

/-- R22: every step keeps the invariants of the registers. -/
def Obligations.StepKeepsTheRegisterInvariants : Prop :=
  ∀ s t : State, s.regs.Inv → step s = .next t → t.regs.Inv

/-- R38, R131, R132, R159: every step keeps the order of events. Commands are accepted only in range and only when no
frame is in progress, rejections carry their own cause, the bytes that leave are the bytes of the accepted command's
frame in order, each once, and `last` stands on the checksum byte and on no other. -/
def Obligations.StepKeepsTheOrderOfEvents : Prop :=
  ∀ s t : State, s.Inv → step s = .next t → t.Inv

/-- R22, U1: from every state with the invariants there is a next state. -/
def Obligations.InvariantStatesAlwaysStep : Prop :=
  ∀ s : State, s.regs.Inv → ∃ t, step s = .next t

/-- From reset, whatever is driven on the inputs for however long, the machine neither faults nor refuses, and every
state on the way has the invariants (R22, R173, D25): the induction over steps on `ResetStateHasTheInvariants`,
`StepKeepsTheOrderOfEvents` and `InvariantStatesAlwaysStep`. -/
def Obligations.EveryRunFromResetIsSafe : Prop :=
  ∀ (inputs : List Input) (n : Nat),
    ∃ t, Host.Core.run Sys2Proof.core n (State.reset.withInputs inputs) = .next t ∧
      State.Inv t

/-! ### Refinement, safety and progress -/

/-- R132: after an accept in any `IDLE` state, with no reset, whatever command the requester drives and however the sink
stalls, the events up to the `N`-th transfer are exactly the transfers of the frame, and the block is in `IDLE` again. -/
def Obligations.AcceptedCommandSendsExactlyItsFrame : Prop :=
  ∀ (s u : State) (n : Nat), s.input.rst = false → s.regs.st = .idle → s.input.cmdValid = true →
    rangeCause s.input.cw = 0b000 → step s = .next u → u.NoReset n →
    u.readySteps n = frameLength (cwOp s.input.cw) → (u.inputAt (n - 1)).txReady = true →
    ∃ t : State, Host.Core.run Sys2Proof.core n u = .next t ∧
      State.events t = s.events ++ .accept (cwOp s.input.cw) (cwOpd s.input.cw) ::
        frameEvents (cwOp s.input.cw) (cwOpd s.input.cw) ∧
      State.regs t = { st := .idle, idx := 0, acc := 0x00, opr := cwOp s.input.cw,
                       opd := cwOpd s.input.cw }

/-- R135: with no reset among the next `n` steps, a frame in progress completes within them exactly when the sink is
ready in at least as many of them as there are bytes left. -/
def Obligations.FrameCompletesExactlyWhenSinkIsReadyOftenEnough : Prop :=
  ∀ (s : State) (n : Nat), s.regs.Inv → s.regs.st = .send → s.NoReset n →
    ((∃ m t, m ≤ n ∧ Host.Core.run Sys2Proof.core m s = .next t ∧ (State.regs t).st = .idle) ↔
      frameLength s.regs.opr ≤ s.regs.idx.toNat + s.readySteps n)

/-- R135, D25: under `SinkFair`, and with no reset at all (the model's form of the other half of D25,
notes/assumptions/12.md), every frame in progress is sent to its end. -/
def Obligations.FairSinkGetsEveryFrameWhole : Prop :=
  ∀ (f : Nat → Input) (s : State), SinkFair f → NeverReset f → s.regs.Inv → s.regs.st = .send →
    ∃ n t, Host.Core.run Sys2Proof.core n (s.withInputs (samples f n)) = .next t ∧
      (State.regs t).st = .idle ∧
      State.events t = s.events ++ (frameEvents s.regs.opr s.regs.opd).drop s.regs.idx.toNat

/-- R133: at the grain of operations a run with no reset, seen in `IDLE`, is the transaction-level machine: one result
for each command sampled, in order, each the pure function of its own command word. It is said of the events that any
state with the invariant records, and `StepKeepsTheOrderOfEvents` says that every run keeps that invariant. -/
def Obligations.RunIsTheTransactionMachine : Prop :=
  ∀ s : State, s.Inv → s.regs.st = .idle → Event.reset ∉ s.events →
    results s.events = (commands s.events).map transact

/-- R63, R159: whatever happened before, resets too, every frame that a run shows is a command frame of operands in range
or a response frame. -/
def Obligations.OnlyCorrectFramesLeave : Prop :=
  ∀ (s : State) (f : List Byte), s.Inv → EncodeResult.accepted f ∈ results s.events →
    (∃ (bri : BitVec 16) (ct duv : Byte),
      (bri.toNat ≤ 1000 ∧ (1 ≤ ct.toNat ∧ ct.toNat ≤ 61) ∧ 1 ≤ duv.toNat ∧ duv.toNat ≤ 5) ∧
      encodeCommand bri ct duv = .accepted f) ∨
    ∃ cid : Byte, f = encodeResponse cid

/-- R159: no byte leaves between a rejection and the next accept. -/
def Obligations.NoByteAfterARejectionBeforeAnAccept : Prop :=
  ∀ (s : State) (before between after : List Event) (cw : CommandWord) (cause : BitVec 3)
    (b : Byte) (last : Bool), s.Inv →
    s.events = before ++ .reject cw cause :: (between ++ .tx b last :: after) →
    ∃ op opd, Event.accept op opd ∈ between

/-- R21: nothing from before reaches what comes after. Two `IDLE` states with the same inputs to come, whatever their
registers hold, record the same events from then on. -/
def Obligations.PastDoesNotReachLaterEvents : Prop :=
  ∀ (s₁ s₂ t₁ t₂ : State) (n : Nat), s₁.regs.st = .idle → s₂.regs.st = .idle →
    s₁.inputs = s₂.inputs → s₁.tick = s₂.tick →
    Host.Core.run Sys2Proof.core n s₁ = .next t₁ → Host.Core.run Sys2Proof.core n s₂ = .next t₂ →
    ∃ e, t₁.events = s₁.events ++ e ∧ t₂.events = s₂.events ++ e

/-- R112, U5: the ignored bits of a response command reach no byte. Two `IDLE` states whose next samples differ only in
the ignored bits of one presented `ENC_RSP` word send the same bytes from then on. -/
def Obligations.IgnoredBitsReachNoByte : Prop :=
  ∀ (s t₁ t₂ : State) (n : Nat) (cid : Byte) (a b : BitVec 24), s.regs.st = .idle →
    s.input.rst = false →
    Host.Core.run Sys2Proof.core n (s.present (1#1 ++ a ++ cid)) = .next t₁ →
    Host.Core.run Sys2Proof.core n (s.present (1#1 ++ b ++ cid)) = .next t₂ →
    results t₁.events = results t₂.events ∧
      t₁.events.filter (fun e => match e with | .tx _ _ => true | _ => false) =
        t₂.events.filter (fun e => match e with | .tx _ _ => true | _ => false)
end

