-- ==== Sys2Proof/Laws/Operands.lean ====
section
/-!
SUPPORT. The fields of a command word and of the operand latch put together and taken apart again; the frames spelled
out; the multiplexer on the two formats.
-/

namespace Sys2Proof.Machine

/-! ### The bits of what is put together -/

theorem getLsbD_commandWord (op : Operation) (opd : OperandWord) (i : Nat) :
    (commandWord op opd).getLsbD i = if i < 32 then opd.getLsbD i else op.bit.getLsbD (i - 32) :=
  BitVec.getLsbD_append

theorem getLsbD_cmdOpd (bri : BitVec 16) (ct duv : Byte) (i : Nat) :
    (cmdOpd bri ct duv).getLsbD i =
      if i < 8 then duv.getLsbD i
      else if i - 8 < 8 then ct.getLsbD (i - 8) else bri.getLsbD (i - 8 - 8) := by
  refine (BitVec.getLsbD_append (x := bri ++ ct) (y := duv)).trans ?_
  rw [BitVec.getLsbD_append]

theorem getLsbD_rspOpd (ign : BitVec 24) (cid : Byte) (i : Nat) :
    (rspOpd ign cid).getLsbD i = if i < 8 then cid.getLsbD i else ign.getLsbD (i - 8) :=
  BitVec.getLsbD_append

theorem getLsbD_twoBytes (high low : Byte) (i : Nat) :
    (high ++ low : BitVec 16).getLsbD i = if i < 8 then low.getLsbD i else high.getLsbD (i - 8) :=
  BitVec.getLsbD_append

/-! ### Command words -/

/-- The encoder's `CW-C` word is the selector bit 0 above the latch's bits (R51). -/
theorem cmdWord_eq (bri : BitVec 16) (ct duv : Byte) :
    (0#1 ++ bri ++ ct ++ duv : CommandWord) = commandWord .encCmd (cmdOpd bri ct duv) := by
  apply BitVec.eq_of_getLsbD_eq
  intro i hi
  rw [getLsbD_commandWord, getLsbD_cmdOpd]
  refine (BitVec.getLsbD_append (x := 0#1 ++ bri ++ ct) (y := duv)).trans ?_
  rw [BitVec.getLsbD_append, BitVec.getLsbD_append]
  simp only [Operation.bit]
  split_ifs <;> first | rfl | (exfalso; omega)

/-- The encoder's `CW-R` word is the selector bit 1 above the latch's bits (R51). -/
theorem rspWord_eq (ign : BitVec 24) (cid : Byte) :
    (1#1 ++ ign ++ cid : CommandWord) = commandWord .encRsp (rspOpd ign cid) := by
  apply BitVec.eq_of_getLsbD_eq
  intro i hi
  rw [getLsbD_commandWord, getLsbD_rspOpd]
  refine (BitVec.getLsbD_append (x := 1#1 ++ ign) (y := cid)).trans ?_
  rw [BitVec.getLsbD_append]
  simp only [Operation.bit]
  split_ifs <;> first | rfl | (exfalso; omega)

@[simp] theorem cwOp_commandWord (op : Operation) (opd : OperandWord) :
    cwOp (commandWord op opd) = op := by
  cases op <;>
    simp only [cwOp, getLsbD_commandWord, Operation.ofBit, Operation.bit] <;> rfl

@[simp] theorem cwOpd_commandWord (op : Operation) (opd : OperandWord) :
    cwOpd (commandWord op opd) = opd := by
  apply BitVec.eq_of_getLsbD_eq
  intro i hi
  simp [cwOpd, getLsbD_commandWord, hi]

@[simp] theorem commandWord_cwOp_cwOpd (cw : CommandWord) :
    commandWord (cwOp cw) (cwOpd cw) = cw := by
  apply BitVec.eq_of_getLsbD_eq
  intro i hi
  rw [getLsbD_commandWord]
  split
  · simp_all [cwOpd]
  · obtain rfl : i = 32 := by omega
    cases h : cw.getLsbD 32 <;> simp only [cwOp, Operation.ofBit, h, Operation.bit] <;> rfl

@[simp] theorem cmdOpd_fields (cw : CommandWord) :
    cmdOpd (cwBri cw) (cwCt cw) (cwDuv cw) = cwOpd cw := by
  apply BitVec.eq_of_getLsbD_eq
  intro i hi
  simp only [getLsbD_cmdOpd, cwBri, cwCt, cwDuv, cwOpd, BitVec.getLsbD_extractLsb', hi]
  split
  · simp_all
  · split
    · simp_all
    · have : i - 8 - 8 < 16 := by omega
      simp only [this, decide_true, Bool.true_and]; congr 1; omega

@[simp] theorem rspOpd_fields (cw : CommandWord) : rspOpd (cwIgn cw) (cwCid cw) = cwOpd cw := by
  apply BitVec.eq_of_getLsbD_eq
  intro i hi
  simp only [getLsbD_rspOpd, cwIgn, cwCid, cwOpd, BitVec.getLsbD_extractLsb', hi]
  split
  · simp_all
  · have : i - 8 < 24 := by omega
    simp_all

/-! ### The operand latch -/

@[simp] theorem opdBri_cmdOpd (bri : BitVec 16) (ct duv : Byte) :
    opdBri (cmdOpd bri ct duv) = bri := by
  apply BitVec.eq_of_getLsbD_eq
  intro i hi
  simp only [opdBri, BitVec.getLsbD_extractLsb', getLsbD_cmdOpd, hi, decide_true, Bool.true_and]
  rw [if_neg (by omega), if_neg (by omega)]
  congr 1; omega

@[simp] theorem opdCt_cmdOpd (bri : BitVec 16) (ct duv : Byte) :
    opdCt (cmdOpd bri ct duv) = ct := by
  apply BitVec.eq_of_getLsbD_eq
  intro i hi
  simp [opdCt, getLsbD_cmdOpd, hi]

@[simp] theorem opdDuv_cmdOpd (bri : BitVec 16) (ct duv : Byte) :
    opdDuv (cmdOpd bri ct duv) = duv := by
  apply BitVec.eq_of_getLsbD_eq
  intro i hi
  simp [opdDuv, getLsbD_cmdOpd, hi]

@[simp] theorem opdHigh_cmdOpd (bri : BitVec 16) (ct duv : Byte) :
    opdHigh (cmdOpd bri ct duv) = briHigh bri := by
  apply BitVec.eq_of_getLsbD_eq
  intro i hi
  simp only [opdHigh, briHigh, BitVec.getLsbD_extractLsb', getLsbD_cmdOpd, hi, decide_true, Bool.true_and]
  rw [if_neg (by omega), if_neg (by omega)]
  congr 1; omega

@[simp] theorem opdLow_cmdOpd (bri : BitVec 16) (ct duv : Byte) :
    opdLow (cmdOpd bri ct duv) = briLow bri := by
  apply BitVec.eq_of_getLsbD_eq
  intro i hi
  simp only [opdLow, briLow, BitVec.getLsbD_extractLsb', getLsbD_cmdOpd, hi, decide_true, Bool.true_and]
  rw [if_neg (by omega), if_neg (by omega)]
  congr 1; omega

@[simp] theorem opdCid_rspOpd (ign : BitVec 24) (cid : Byte) : opdCid (rspOpd ign cid) = cid := by
  apply BitVec.eq_of_getLsbD_eq
  intro i hi
  simp [opdCid, getLsbD_rspOpd, hi]

@[simp] theorem briHigh_append_briLow (bri : BitVec 16) :
    (briHigh bri ++ briLow bri : BitVec 16) = bri := by
  apply BitVec.eq_of_getLsbD_eq
  intro i hi
  rw [getLsbD_twoBytes]
  split
  · simp_all [briLow]
  · have : i - 8 < 8 := by omega
    simp_all [briHigh]

@[simp] theorem briHigh_append (high low : Byte) : briHigh (high ++ low) = high := by
  apply BitVec.eq_of_getLsbD_eq
  intro i hi
  simp [briHigh, getLsbD_twoBytes, hi]

@[simp] theorem briLow_append (high low : Byte) : briLow (high ++ low) = low := by
  apply BitVec.eq_of_getLsbD_eq
  intro i hi
  simp [briLow, getLsbD_twoBytes, hi]

/-- The brightness is its two bytes, high first (R61). -/
theorem opdBri_eq (opd : OperandWord) : opdBri opd = opdHigh opd ++ opdLow opd := by
  apply BitVec.eq_of_getLsbD_eq
  intro i hi
  rw [getLsbD_twoBytes]
  simp only [opdBri, opdHigh, opdLow, BitVec.getLsbD_extractLsb', hi]
  split
  · simp_all
  · have : i - 8 < 8 := by omega
    simp_all; congr 1; omega

/-- The latch is its four bytes. -/
@[simp] theorem cmdOpd_views (opd : OperandWord) :
    cmdOpd (opdHigh opd ++ opdLow opd) (opdCt opd) (opdDuv opd) = opd := by
  apply BitVec.eq_of_getLsbD_eq
  intro i hi
  rw [← opdBri_eq]
  simp only [getLsbD_cmdOpd, opdBri, opdCt, opdDuv, BitVec.getLsbD_extractLsb']
  split
  · simp_all
  · split
    · simp_all
    · have : i - 8 - 8 < 16 := by omega
      simp only [this, decide_true, Bool.true_and]; congr 1; omega

/-! ### The range check -/

theorem rangeCause_encRsp (opd : OperandWord) : rangeCause (commandWord .encRsp opd) = 0 := by
  simp [rangeCause, cwOp_commandWord]

theorem cwBri_commandWord (op : Operation) (opd : OperandWord) :
    cwBri (commandWord op opd) = opdBri opd := by
  apply BitVec.eq_of_getLsbD_eq
  intro i hi
  simp [cwBri, opdBri, getLsbD_commandWord, hi]
  omega

theorem cwCt_commandWord (op : Operation) (opd : OperandWord) :
    cwCt (commandWord op opd) = opdCt opd := by
  apply BitVec.eq_of_getLsbD_eq
  intro i hi
  simp [cwCt, opdCt, getLsbD_commandWord, hi]
  omega

theorem cwDuv_commandWord (op : Operation) (opd : OperandWord) :
    cwDuv (commandWord op opd) = opdDuv opd := by
  apply BitVec.eq_of_getLsbD_eq
  intro i hi
  simp [cwDuv, opdDuv, getLsbD_commandWord, hi]
  omega

theorem cwCid_commandWord (op : Operation) (opd : OperandWord) :
    cwCid (commandWord op opd) = opdCid opd := by
  apply BitVec.eq_of_getLsbD_eq
  intro i hi
  simp [cwCid, opdCid, getLsbD_commandWord, hi]
  omega

@[simp] theorem briInRange_iff (bri : BitVec 16) : briInRange bri = true ↔ bri.toNat ≤ 1000 := by
  refine decide_eq_true_iff.trans ⟨fun h => h.2, fun h => ⟨Nat.zero_le _, h⟩⟩

@[simp] theorem ctInRange_iff (ct : Byte) :
    ctInRange ct = true ↔ 1 ≤ ct.toNat ∧ ct.toNat ≤ 61 :=
  decide_eq_true_iff

@[simp] theorem duvInRange_iff (duv : Byte) :
    duvInRange duv = true ↔ 1 ≤ duv.toNat ∧ duv.toNat ≤ 5 :=
  decide_eq_true_iff

/-- No cause is raised exactly when every operand is in range. -/
theorem rangeCause_encCmd_eq_zero (opd : OperandWord) :
    rangeCause (commandWord .encCmd opd) = 0 ↔
      briInRange (opdBri opd) ∧ ctInRange (opdCt opd) ∧ duvInRange (opdDuv opd) := by
  simp only [rangeCause, cwOp_commandWord, cwBri_commandWord, cwCt_commandWord, cwDuv_commandWord]
  cases briInRange (opdBri opd) <;> cases ctInRange (opdCt opd) <;>
    cases duvInRange (opdDuv opd) <;> decide

/-! ### The checksum -/

@[simp] theorem checksum_nil : checksum [] = 0 := rfl

theorem checksum_snoc (l : List Byte) (b : Byte) : checksum (l ++ [b]) = checksum l + b := by
  simp [checksum]

/-! ### Frames -/

theorem frame_encCmd (opd : OperandWord) :
    frame .encCmd opd = body .encCmd opd ++ [checksum (body .encCmd opd)] := rfl

theorem frame_encRsp (opd : OperandWord) :
    frame .encRsp opd = body .encRsp opd ++ [checksum (body .encRsp opd)] := rfl

theorem frame_length (op : Operation) (opd : OperandWord) :
    (frame op opd).length = frameLength op := by
  cases op <;> rfl

/-- Before its last position the multiplexer offers the bytes of the frame, whatever the accumulator holds; at the last
position it offers the accumulator. -/
theorem field_eq (op : Operation) (i : BitVec 3) (opd : OperandWord) (acc : Byte)
    (h : i ≤ lastIdx op) :
    field op i opd acc =
      if i = lastIdx op then some acc else (frame op opd)[i.toNat]? := by
  obtain ⟨n, hn⟩ := i
  cases op
  · interval_cases n <;> rfl
  · have : n ≤ 4 := h
    interval_cases n <;> rfl

end Sys2Proof.Machine
end

