-- ==== Sys2Proof/Laws/State.lean ====
section
/-!
SUPPORT. One lemma for each field of each update of the state, and what the next samples are after it.
-/

namespace Sys2Proof.Machine

@[simp] theorem State.advance_regs (s : State) (r : Regs) (e : List Event) :
    (s.advance r e).regs = r := rfl
@[simp] theorem State.advance_inputs (s : State) (r : Regs) (e : List Event) :
    (s.advance r e).inputs = s.inputs.tail := rfl
@[simp] theorem State.advance_tick (s : State) (r : Regs) (e : List Event) :
    (s.advance r e).tick = s.tick + 1 := rfl
@[simp] theorem State.advance_events (s : State) (r : Regs) (e : List Event) :
    (s.advance r e).events = s.events ++ e := rfl

@[simp] theorem State.withInput_regs (s : State) (i : Input) : (s.withInput i).regs = s.regs := rfl
@[simp] theorem State.withInput_inputs (s : State) (i : Input) :
    (s.withInput i).inputs = i :: s.inputs.tail := rfl
@[simp] theorem State.withInput_tick (s : State) (i : Input) : (s.withInput i).tick = s.tick := rfl
@[simp] theorem State.withInput_events (s : State) (i : Input) :
    (s.withInput i).events = s.events := rfl
@[simp] theorem State.withInput_input (s : State) (i : Input) : (s.withInput i).input = i := rfl

@[simp] theorem State.present_regs (s : State) (cw : CommandWord) :
    (s.present cw).regs = s.regs := rfl
@[simp] theorem State.present_input (s : State) (cw : CommandWord) :
    (s.present cw).input = { s.input with cmdValid := true, cw := cw } := rfl

/-- Using the sample that a state got by `withInput` leaves what using its own sample leaves. -/
@[simp] theorem State.withInput_advance (s : State) (i : Input) (r : Regs) (e : List Event) :
    (s.withInput i).advance r e = s.advance r e := rfl

/-- The samples of the next state are those of this one, one step on. -/
@[simp] theorem State.inputAt_advance (s : State) (r : Regs) (e : List Event) (k : Nat) :
    (s.advance r e).inputAt k = s.inputAt (k + 1) := by
  simp [State.inputAt, Nat.add_assoc, Nat.add_comm 1 k]

theorem State.input_advance (s : State) (r : Regs) (e : List Event) :
    (s.advance r e).input = s.inputAt 1 := by
  simp [State.input]

/-- A listed sample is the one that a step takes. -/
theorem State.inputAt_of_lt (s : State) (k : Nat) (h : k < s.inputs.length) :
    s.inputAt k = s.inputs[k] := by
  simp [State.inputAt, h]

@[simp] theorem State.reset_regs : State.reset.regs = Regs.reset := rfl
@[simp] theorem State.reset_events : State.reset.events = [] := rfl
@[simp] theorem Regs.reset_st : Regs.reset.st = .idle := rfl

end Sys2Proof.Machine
end

