-- ==== Sys2Proof/Laws/Ops.lean ====
section
/-!
SUPPORT. Everything that each shared operation can do, and what `exec` and `step` are in terms of them.
-/

namespace Sys2Proof.Machine

/-! ### What the arms leave in the registers and the record -/

@[simp] theorem resetStep_regs (s : State) : (resetStep s).regs = Regs.reset := rfl
@[simp] theorem resetStep_events (s : State) : (resetStep s).events = s.events ++ [.reset] := rfl
@[simp] theorem idleWait_regs (s : State) : (idleWait s).regs = s.regs := rfl
@[simp] theorem idleWait_events (s : State) : (idleWait s).events = s.events := by
  simp [idleWait]
@[simp] theorem accept_regs (op : Operation) (opd : OperandWord) (s : State) :
    (accept op opd s).regs = { st := .send, idx := 0, acc := 0x00, opr := op, opd := opd } := rfl
@[simp] theorem accept_events (op : Operation) (opd : OperandWord) (s : State) :
    (accept op opd s).events = s.events ++ [.accept op opd] := rfl
@[simp] theorem raiseReject_regs (cw : CommandWord) (cause : BitVec 3) (s : State) :
    (raiseReject cw cause s).regs = s.regs := rfl
@[simp] theorem raiseReject_events (cw : CommandWord) (cause : BitVec 3) (s : State) :
    (raiseReject cw cause s).events = s.events ++ [.reject cw cause] := rfl
@[simp] theorem sendNext_regs (b : Byte) (s : State) :
    (sendNext b s).regs = { s.regs with acc := s.regs.acc + b, idx := s.regs.idx + 1 } := rfl
@[simp] theorem sendNext_events (b : Byte) (s : State) :
    (sendNext b s).events = s.events ++ [.tx b false] := rfl
@[simp] theorem sendLast_regs (b : Byte) (s : State) :
    (sendLast b s).regs = { s.regs with st := .idle, idx := 0, acc := 0x00 } := rfl
@[simp] theorem sendLast_events (b : Byte) (s : State) :
    (sendLast b s).events = s.events ++ [.tx b true] := rfl
@[simp] theorem stall_regs (s : State) : (stall s).regs = s.regs := rfl
@[simp] theorem stall_events (s : State) : (stall s).events = s.events := by simp [stall]

/-! ### The multiplexer -/

/-- `Field` has a row exactly at the positions of the format (R58). -/
theorem field_eq_none_iff (op : Operation) (i : BitVec 3) (opd : OperandWord) (acc : Byte) :
    field op i opd acc = none ↔ op = .encRsp ∧ 5 ≤ i.toNat := by
  obtain ⟨n, hn⟩ := i
  cases op <;> interval_cases n <;> simp [field]

/-- At the position of the checksum it offers the accumulator. -/
theorem field_lastIdx (op : Operation) (opd : OperandWord) (acc : Byte) :
    field op (lastIdx op) opd acc = some acc := by
  cases op <;> rfl

/-! ### A `SEND` step -/

/-- Everything that a `SEND` step with a next state can be: stall, a transfer that is not the last, the last one. -/
theorem sendStep_cases {s t : State} (h : sendStep s = .next t) :
    ∃ b, field s.regs.opr s.regs.idx s.regs.opd s.regs.acc = some b ∧
      ((s.input.txReady = false ∧ t = stall s) ∨
       (s.input.txReady = true ∧ s.regs.idx ≠ lastIdx s.regs.opr ∧ t = sendNext b s) ∨
       (s.input.txReady = true ∧ s.regs.idx = lastIdx s.regs.opr ∧ t = sendLast b s)) := by
  unfold sendStep at h
  cases hf : field s.regs.opr s.regs.idx s.regs.opd s.regs.acc with
  | none => simp [hf] at h
  | some b =>
    refine ⟨b, rfl, ?_⟩
    simp only [hf] at h
    cases hr : s.input.txReady
    · exact .inl ⟨rfl, by simpa [hr] using h.symm⟩
    · by_cases hl : s.regs.idx = lastIdx s.regs.opr
      · exact .inr (.inr ⟨rfl, hl, by simpa [hr, hl] using h.symm⟩)
      · exact .inr (.inl ⟨rfl, hl, by simpa [hr, hl] using h.symm⟩)

theorem sendStep_of_field {s : State} {b : Byte}
    (h : field s.regs.opr s.regs.idx s.regs.opd s.regs.acc = some b) :
    sendStep s = .next (if s.input.txReady then
      (if s.regs.idx = lastIdx s.regs.opr then sendLast b s else sendNext b s) else stall s) := by
  unfold sendStep
  rw [h]
  dsimp only
  split
  · split <;> rfl
  · rfl

theorem sendStep_of_field_none {s : State}
    (h : field s.regs.opr s.regs.idx s.regs.opd s.regs.acc = none) :
    sendStep s = .fault .undefinedField := by
  simp [sendStep, h]

/-! ### The two gates -/

/-- Everything that a step with a command presented and a next state can be. -/
theorem whenSampled_cases {s sampled t : State} (h : whenSampled s sampled = .next t) :
    (s.input.rst = true ∧ t = resetStep s) ∨
    (s.input.rst = false ∧ s.regs.st = .idle ∧ t = sampled) ∨
    (s.input.rst = false ∧ s.regs.st = .send ∧ sendStep s = .next t) := by
  unfold whenSampled at h
  cases hr : s.input.rst
  · cases hs : s.regs.st
    · exact .inr (.inl ⟨rfl, rfl, by simpa [hr, hs] using h.symm⟩)
    · exact .inr (.inr ⟨rfl, rfl, by simpa [hr, hs] using h⟩)
  · exact .inl ⟨rfl, by simpa [hr] using h.symm⟩

/-- Everything that a step of a frame with a next state can be. -/
theorem whenInFlight_cases {s t : State} {inFlight : Bool} (h : whenInFlight s inFlight = .next t) :
    (s.input.rst = true ∧ t = resetStep s) ∨
    (s.input.rst = false ∧ s.regs.st = .send ∧ inFlight = true ∧ sendStep s = .next t) := by
  unfold whenInFlight at h
  cases hr : s.input.rst
  · by_cases hi : s.regs.st = .send ∧ inFlight = true
    · exact .inr ⟨rfl, hi.1, hi.2, by simpa [hr, hi] using h⟩
    · simp [hr, hi] at h
  · exact .inl ⟨rfl, by simpa [hr] using h.symm⟩

/-! ### The meanings -/

/-- The two operations are one: what happens to a command word that is presented. -/
theorem exec_decodeCommand (cw : CommandWord) (s : State) :
    exec (decodeCommand cw) s = whenSampled s
      (if rangeCause cw = 0 then accept (cwOp cw) (cwOpd cw) s
       else raiseReject cw (rangeCause cw) s) := by
  cases h : cwOp cw
  · have hc : commandWord .encCmd (cwOpd cw) = cw := by rw [← h, commandWord_cwOp_cwOpd]
    simp [decodeCommand, h, exec, execEncCmd, hc]
  · have hc : rangeCause cw = 0 := by simp [rangeCause, h]
    simp [decodeCommand, h, exec, execEncRsp, hc]

theorem decodeCommand_encCmd (bri : BitVec 16) (ct duv : Byte) :
    decodeCommand (commandWord .encCmd (cmdOpd bri ct duv)) = .encCmd bri ct duv := by
  simp [decodeCommand, cwBri_commandWord, cwCt_commandWord, cwDuv_commandWord]

theorem cwIgn_rspOpd (ign : BitVec 24) (cid : Byte) :
    cwIgn (commandWord .encRsp (rspOpd ign cid)) = ign := by
  apply BitVec.eq_of_getLsbD_eq
  intro i hi
  simp only [cwIgn, BitVec.getLsbD_extractLsb', getLsbD_commandWord, getLsbD_rspOpd, hi,
    decide_true, Bool.true_and]
  rw [if_pos (by omega), if_neg (by omega)]
  congr 1; omega

theorem decodeCommand_encRsp (ign : BitVec 24) (cid : Byte) :
    decodeCommand (commandWord .encRsp (rspOpd ign cid)) = .encRsp ign cid := by
  simp [decodeCommand, cwCid_commandWord, cwIgn_rspOpd]

/-- The frame in progress is run by a `SEND` step. -/
theorem exec_frameInFlight (s : State) (hr : s.input.rst = false) (hs : s.regs.st = .send) :
    exec (frameInFlight s.regs) s = sendStep s := by
  unfold frameInFlight
  cases ho : s.regs.opr <;>
    simp [exec, execCmdFrame, execRspFrame, whenInFlight, hr, hs, ho]

/-- The step function as the dispatch of R120. -/
theorem step_eq (s : State) :
    step s =
      if s.input.rst then .next (resetStep s)
      else match s.regs.st with
        | .idle =>
          if s.input.cmdValid then
            .next (if rangeCause s.input.cw = 0 then accept (cwOp s.input.cw) (cwOpd s.input.cw) s
              else raiseReject s.input.cw (rangeCause s.input.cw) s)
          else .next (idleWait s)
        | .send => sendStep s := by
  unfold step
  by_cases hr : s.input.rst
  · simp [hr]
  · have hr' : s.input.rst = false := by simpa using hr
    cases hs : s.regs.st
    · simp [hr', exec_decodeCommand, whenSampled, hs]
    · simp [hr', exec_frameInFlight, hs]

/-- Everything that a step with a next state can be: one of the seven arms of R120. -/
theorem step_cases {s t : State} (h : step s = .next t) :
    (s.input.rst = true ∧ t = resetStep s) ∨
    (s.input.rst = false ∧ s.regs.st = .idle ∧ s.input.cmdValid = false ∧ t = idleWait s) ∨
    (s.input.rst = false ∧ s.regs.st = .idle ∧ s.input.cmdValid = true ∧
      rangeCause s.input.cw = 0 ∧ t = accept (cwOp s.input.cw) (cwOpd s.input.cw) s) ∨
    (s.input.rst = false ∧ s.regs.st = .idle ∧ s.input.cmdValid = true ∧
      rangeCause s.input.cw ≠ 0 ∧ t = raiseReject s.input.cw (rangeCause s.input.cw) s) ∨
    (s.input.rst = false ∧ s.regs.st = .send ∧ sendStep s = .next t) := by
  rw [step_eq] at h
  cases hr : s.input.rst
  · cases hs : s.regs.st
    · cases hv : s.input.cmdValid
      · refine .inr (.inl ⟨rfl, rfl, rfl, ?_⟩)
        simpa [hr, hs, hv] using h.symm
      · by_cases hc : rangeCause s.input.cw = 0
        · refine .inr (.inr (.inl ⟨rfl, rfl, rfl, hc, ?_⟩))
          simpa [hr, hs, hv, hc] using h.symm
        · refine .inr (.inr (.inr (.inl ⟨rfl, rfl, rfl, hc, ?_⟩)))
          simp only [hr, hs, hv, if_neg hc] at h
          simpa using h.symm
    · refine .inr (.inr (.inr (.inr ⟨rfl, rfl, ?_⟩)))
      simpa [hr, hs] using h
  · exact .inl ⟨rfl, by simpa [hr] using h.symm⟩

end Sys2Proof.Machine
end

