-- ==== Sys2Proof/Laws/PerInstr.lean ====
section
/-!
SUPPORT. Statements about every instruction, one lemma for each constructor. `TableMatch`: the number of an
instruction's encoding fits its row of spec/opcode_table.json: it is within the row's width, and under the row's
mask it is the row's match.
-/

namespace Sys2Proof.Laws

open Sys2Proof.Machine

/-! ### The bytes of a frame under a mask -/

theorem and_mul_add (k hi lo m n : Nat) (hlo : lo < 2 ^ k) (hn : n < 2 ^ k) :
    (hi * 2 ^ k + lo) &&& (m * 2 ^ k + n) = (hi &&& m) * 2 ^ k + (lo &&& n) := by
  have hd : ((hi * 2 ^ k + lo) &&& (m * 2 ^ k + n)) / 2 ^ k = hi &&& m := by
    rw [Nat.and_div_two_pow, Nat.mul_comm hi, Nat.mul_comm m,
      Nat.mul_add_div (Nat.two_pow_pos k), Nat.mul_add_div (Nat.two_pow_pos k),
      Nat.div_eq_of_lt hlo, Nat.div_eq_of_lt hn, Nat.add_zero, Nat.add_zero]
  have hm : ((hi * 2 ^ k + lo) &&& (m * 2 ^ k + n)) % 2 ^ k = lo &&& n := by
    rw [Nat.and_mod_two_pow, Nat.mul_comm hi, Nat.mul_comm m, Nat.mul_add_mod, Nat.mul_add_mod,
      Nat.mod_eq_of_lt hlo, Nat.mod_eq_of_lt hn]
  rw [← Nat.div_add_mod ((hi * 2 ^ k + lo) &&& (m * 2 ^ k + n)) (2 ^ k), hd, hm, Nat.mul_comm]

theorem bytesToNat_snoc (l : List Byte) (b : Byte) :
    bytesToNat (l ++ [b]) = bytesToNat l * 256 + b.toNat := by
  simp [bytesToNat]

theorem bytesToNat_lt (l : List Byte) : bytesToNat l < 256 ^ l.length := by
  induction l using List.reverseRecOn with
  | nil => simp [bytesToNat]
  | append_singleton l b ih =>
    have := b.isLt
    rw [bytesToNat_snoc, List.length_append, List.length_singleton, pow_succ]
    omega

theorem and_snoc (l m : List Byte) (b c : Byte) :
    bytesToNat (l ++ [b]) &&& bytesToNat (m ++ [c]) =
      (bytesToNat l &&& bytesToNat m) * 256 + (b &&& c).toNat := by
  rw [bytesToNat_snoc, bytesToNat_snoc, BitVec.toNat_and]
  exact and_mul_add 8 _ _ _ _ b.isLt c.isLt

/-! ### The family -/

/-- The encoding of an instruction is a word of its row of the opcode table. -/
def TableMatch.Statement (i : Instr) : Prop :=
  imageToNat (encode i) < 2 ^ (tableRow i).width ∧
    imageToNat (encode i) &&& (tableRow i).mask = (tableRow i).pattern

theorem commandWord_and_selector (op : Operation) (opd : OperandWord) :
    (commandWord op opd).toNat &&& 2 ^ 32 = op.bit.toNat * 2 ^ 32 := by
  rw [Nat.and_two_pow]
  have h : (commandWord op opd).toNat.testBit 32 = op.bit.getLsbD 0 := getLsbD_commandWord op opd 32
  rw [h]
  cases op <;> rfl

theorem TableMatch.encCmd (bri : BitVec 16) (ct duv : Byte) :
    TableMatch.Statement (.encCmd bri ct duv) := by
  refine ⟨BitVec.isLt _, ?_⟩
  simp only [encode, imageToNat, tableRow, cmdWord_eq]
  exact commandWord_and_selector .encCmd _

theorem TableMatch.encRsp (ign : BitVec 24) (cid : Byte) :
    TableMatch.Statement (.encRsp ign cid) := by
  refine ⟨BitVec.isLt _, ?_⟩
  simp only [encode, imageToNat, tableRow, rspWord_eq]
  exact commandWord_and_selector .encRsp _

theorem TableMatch.cmdFrame (high low ct duv sum : Byte) :
    TableMatch.Statement (.cmdFrame high low ct duv sum) := by
  refine ⟨?_, ?_⟩
  · have := bytesToNat_lt [0x01, 0xA0, 0x04, high, low, ct, duv, sum]
    simp only [List.length_cons, List.length_nil] at this
    exact lt_of_lt_of_eq this (by norm_num [tableRow])
  have h : ∀ x : Byte, x &&& 0x00 = 0x00 := fun x => BitVec.and_zero
  show bytesToNat [0x01, 0xA0, 0x04, high, low, ct, duv, sum] &&&
    bytesToNat [0xFF, 0xFF, 0xFF, 0x00, 0x00, 0x00, 0x00, 0x00] = _
  rw [show bytesToNat [0x01, 0xA0, 0x04, high, low, ct, duv, sum] =
      bytesToNat (((([0x01, 0xA0, 0x04] ++ [high]) ++ [low]) ++ [ct]) ++ [duv] ++ [sum]) from rfl,
    show bytesToNat [0xFF, 0xFF, 0xFF, 0x00, 0x00, 0x00, 0x00, 0x00] =
      bytesToNat (((([0xFF, 0xFF, 0xFF] ++ [0x00]) ++ [0x00]) ++ [0x00]) ++ [0x00] ++ [0x00]) from rfl,
    and_snoc, and_snoc, and_snoc, and_snoc, and_snoc, h, h, h, h, h]
  rfl

theorem TableMatch.rspFrame (cid sum : Byte) : TableMatch.Statement (.rspFrame cid sum) := by
  refine ⟨?_, ?_⟩
  · have := bytesToNat_lt [0x06, cid, 0x04, cid, sum]
    simp only [List.length_cons, List.length_nil] at this
    exact lt_of_lt_of_eq this (by norm_num [tableRow])
  have h : ∀ x : Byte, x &&& 0x00 = 0x00 := fun x => BitVec.and_zero
  show bytesToNat [0x06, cid, 0x04, cid, sum] &&& bytesToNat [0xFF, 0x00, 0xFF, 0x00, 0x00] = _
  rw [show bytesToNat [0x06, cid, 0x04, cid, sum] =
      bytesToNat ((([0x06] ++ [cid]) ++ [0x04]) ++ [cid] ++ [sum]) from rfl,
    show bytesToNat [0xFF, 0x00, 0xFF, 0x00, 0x00] =
      bytesToNat ((([0xFF] ++ [0x00]) ++ [0xFF]) ++ [0x00] ++ [0x00]) from rfl,
    and_snoc, and_snoc, and_snoc, and_snoc, h, h]
  rfl

end Sys2Proof.Laws
end

