-- ==== Sys2Proof/Laws/Step.lean ====
section
/-!
SUPPORT. A run of the machine, one step at a time.
-/

namespace Sys2Proof.Machine

theorem run_zero (s : State) : Host.Core.run Sys2Proof.core 0 s = .next s := rfl

theorem run_succ_of_next {s t : State} (h : step s = .next t) (n : Nat) :
    Host.Core.run Sys2Proof.core (n + 1) s = Host.Core.run Sys2Proof.core n t := by
  have h' : Sys2Proof.core.step s = .next t := h
  simp only [Host.Core.run, h']

theorem run_succ_of_fault {s : State} {r : Fault} (h : step s = .fault r) (n : Nat) :
    Host.Core.run Sys2Proof.core (n + 1) s = .fault r := by
  have h' : Sys2Proof.core.step s = .fault r := h
  simp only [Host.Core.run, h']

theorem run_succ_of_refused {s : State} {r : Refusal} (h : step s = .refused r) (n : Nat) :
    Host.Core.run Sys2Proof.core (n + 1) s = .refused r := by
  have h' : Sys2Proof.core.step s = .refused r := h
  simp only [Host.Core.run, h']

/-- The frame in progress is what decoding the frame of the latch gives. -/
theorem decode_frame_latch (r : Regs) :
    decode (.frame (frame r.opr r.opd)) = .ok (frameInFlight r) := by
  cases h : r.opr <;> simp only [frameInFlight, h]
  · rfl
  · simp [decode, frame, rspFrameBytes, rspFrameOf, decodeFrame, decodeRspFrame, Config.protocol,
      body]

end Sys2Proof.Machine
end

