-- ==== Sys2Proof/Tests/Slice0.lean ====
section
/-!
SUPPORT. Tests. Every expected value is the spec's own: its encodings (spec/30_encoding.md), its worked examples
(spec/41_enc_cmd.md R101, spec/42_enc_rsp.md R117) and the vectors of spec/95_test_vectors.md. After them, for every
statement that has hypotheses, a concrete state and operands that meet all of them (`witness_…`).
-/

namespace Sys2Proof.Tests

open Sys2Proof.Machine

/-! ### Small states -/

def quiet : Input := { rst := false, cmdValid := false, cw := 0, txReady := false }
def ready : Input := { quiet with txReady := true }
def resetting : Input := { quiet with rst := true }
def presenting (cw : CommandWord) : Input := { quiet with cmdValid := true, cw := cw }

/-- A state with given registers and the samples of its next steps. -/
def stateOf (r : Regs) (inputs : List Input) : State :=
  { regs := r, inputs := inputs, tick := 0, events := [] }

def idle (opr : Operation) (opd : OperandWord) : Regs :=
  { st := .idle, idx := 0, acc := 0, opr := opr, opd := opd }

def send (idx : BitVec 3) (acc : Byte) (opr : Operation) (opd : OperandWord) : Regs :=
  { st := .send, idx := idx, acc := acc, opr := opr, opd := opd }

def regsAfter : Host.Outcome State Fault Refusal → Option Regs
  | .next t => some t.regs
  | _ => none

def eventsAfter : Host.Outcome State Fault Refusal → Option (List Event)
  | .next t => some t.events
  | _ => none

/-! ### Well-formedness: each check refuses an ill-formed term (R92, R87) -/

theorem test_wf_brightness_1001 :
    formError (.cmdFrame 0x03 0xE9 0x01 0x01 0x93) = some .brightnessOutOfRange := by decide
theorem test_wf_color_temp_62 :
    formError (.cmdFrame 0x00 0x00 0x3E 0x01 0xE4) = some .colorTempOutOfRange := by decide
theorem test_wf_duv_0 :
    formError (.cmdFrame 0x00 0x00 0x01 0x00 0xA6) = some .duvOutOfRange := by decide
/-- The literal printed in the source's example is wrong (90_conflicts.md C1). -/
theorem test_wf_command_checksum :
    formError (.cmdFrame 0x01 0xF4 0x14 0x02 0xD6) = some .wrongChecksum := by decide
/-- 90_conflicts.md C2. -/
theorem test_wf_response_checksum : formError (.rspFrame 0xA0 0xEA) = some .wrongChecksum := by
  decide
theorem test_wf_frames :
    wellFormed (.cmdFrame 0x01 0xF4 0x14 0x02 0xB0) ∧ wellFormed (.rspFrame 0xA0 0x4A) ∧
      wellFormed (.encCmd 65535 255 255) := by decide

/-! ### Decoding: words written out bit by bit from R51, R54, R56 -/

/-- `CW-C`: 0, then 500 on 16 bits, 20 on 8 bits, 2 on 8 bits. -/
theorem test_decode_encCmd :
    decode (.command 0b0_0000000111110100_00010100_00000010) = .ok (.encCmd 500 20 2) := by rfl
/-- `CW-R`: 1, then 24 ignored bits, then the command id. -/
theorem test_decode_encRsp :
    decode (.command 0b1_101010111100110111101111_10100000) = .ok (.encRsp 0xABCDEF 0xA0) := by rfl
/-- R55, with h = 3, l = 0xE8, t = 61, d = 5. -/
theorem test_decode_cmdFrame :
    decode (.frame [0b00000001, 0b10100000, 0b00000100, 0b00000011, 0b11101000, 0b00111101, 0b00000101,
      0b11010010]) = .ok (.cmdFrame 3 0xE8 61 5 0xD2) := by rfl
/-- R57, with c = 0x7B. -/
theorem test_decode_rspFrame :
    decode (.frame [0b00000110, 0b01111011, 0b00000100, 0b01111011, 0b00000000]) =
      .ok (.rspFrame 0x7B 0) := by rfl

theorem test_decode_rejects :
    decode (.frame []) = .error .emptyFrame ∧
    decode (.frame [0x15, 0xA0, 0x04, 0xA0, 0x4A]) = .error .unknownHeader ∧
    decode (.frame [0x01, 0xA0, 0x04]) = .error .wrongByteCount ∧
    decode (.frame [0x06, 0xA0, 0x04, 0xA0, 0x4A, 0x00]) = .error .wrongByteCount ∧
    decode (.frame [0x01, 0xA1, 0x04, 0, 0, 1, 1, 0xA8]) = .error .wrongCommandId ∧
    decode (.frame [0x01, 0xA0, 0x05, 0, 0, 1, 1, 0xA8]) = .error .wrongLengthField ∧
    decode (.frame [0x06, 0xA0, 0x01, 0xA0, 0x47]) = .error .wrongLengthField ∧
    decode (.frame [0x06, 0xA0, 0x04, 0xA1, 0x4B]) = .error .payloadNotEcho :=
  ⟨rfl, rfl, rfl, rfl, rfl, rfl, rfl, rfl⟩

/-- The opcode table's own match words. -/
theorem test_table_words :
    decodeTableWord 40 0x000000000 = some (.encCmd 0 0 0) ∧
    decodeTableWord 40 0x100000000 = some (.encRsp 0 0) ∧
    decodeTableWord 64 0x01A0040000000000 = some (.cmdFrame 0 0 0 0 0) ∧
    decodeTableWord 40 0x0600040000 = some (.rspFrame 0 0) ∧
    decodeTableWord 40 0x0200000000 = none := by decide

/-- The recogniser also checks the checksum byte: the source's two printed literals fail (C1, C2). -/
theorem test_recognise :
    recogniseFrame [0x01, 0xA0, 0x04, 0x01, 0xF4, 0x14, 0x02, 0xB0] =
      some (.cmdFrame 0x01 0xF4 0x14 0x02 0xB0) ∧
    recogniseFrame [0x01, 0xA0, 0x04, 0x01, 0xF4, 0x14, 0x02, 0xD6] = none ∧
    recogniseFrame [0x06, 0xA0, 0x04, 0xA0, 0xEA] = none := by decide

/-! ### The functions (95_test_vectors.md sections 2 to 6) -/

theorem test_checksum :
    checksum [0xFF, 0x01] = 0x00 ∧ checksum [0xFF, 0xFF, 0xFF] = 0xFD ∧
    checksum [0x06, 0xA0, 0x04, 0xA0] = 0x4A ∧
    checksum [0x01, 0xA0, 0x04, 0x01, 0xF4, 0x14, 0x02, 0xB0] = 0x60 := by decide

theorem test_rangeCause :
    rangeCause 0x003E83D05 = 0b000 ∧ rangeCause 0x003E90101 = 0b001 ∧
    rangeCause 0x000003E01 = 0b010 ∧ rangeCause 0x000000106 = 0b100 ∧
    rangeCause 0x003E90001 = 0b011 ∧ rangeCause 0x000000000 = 0b110 ∧
    rangeCause 0x0FFFF0000 = 0b111 ∧ rangeCause 0x1FFFFFFFF = 0b000 := by decide

theorem test_field :
    field .encCmd 3 0x01F41402 0xA5 = some 0x01 ∧ field .encCmd 4 0x01F41402 0xA6 = some 0xF4 ∧
    field .encCmd 7 0x01F41402 0xB0 = some 0xB0 ∧ field .encRsp 3 0xABCDEFFF 0x09 = some 0xFF ∧
    field .encRsp 4 0xABCDEFFF 0x08 = some 0x08 ∧ field .encRsp 5 0xABCDEFFF 0x08 = none := by
  decide

theorem test_frames :
    frame .encCmd 0x02FF3D05 = [0x01, 0xA0, 0x04, 0x02, 0xFF, 0x3D, 0x05, 0xE8] ∧
    frame .encCmd 0x001D3D01 = [0x01, 0xA0, 0x04, 0x00, 0x1D, 0x3D, 0x01, 0x00] ∧
    frame .encRsp 0xABCDEFFF = [0x06, 0xFF, 0x04, 0xFF, 0x08] := by decide

theorem test_transact :
    transact 0x001F41402 = .accepted [0x01, 0xA0, 0x04, 0x01, 0xF4, 0x14, 0x02, 0xB0] ∧
    transact 0x003E90002 = .rejected 0b011 ∧
    transact 0x1FFFFFFA0 = .accepted [0x06, 0xA0, 0x04, 0xA0, 0x4A] := by decide

/-! ### Single steps (95_test_vectors.md sections 7 and 8) -/

theorem test_step_encCmd_accept :
    regsAfter (step (stateOf (idle .encRsp 0x000000A0) [presenting 0x003E83D05])) =
      some (send 0 0 .encCmd 0x03E83D05) := by decide

theorem test_step_encCmd_reject :
    regsAfter (step (stateOf (idle .encRsp 0x000000A0) [presenting 0x0FFFF0000])) =
      some (idle .encRsp 0x000000A0) ∧
    (stateOf (idle .encRsp 0x000000A0) [presenting 0x0FFFF0000]).output =
      some { cmdReady := true, rej := true, rejCause := 0b111, txValid := false, txData := 0,
             txLast := false } := by decide

theorem test_step_encRsp_accept :
    regsAfter (step (stateOf (idle .encCmd 0x01F41402) [presenting 0x1ABCDEFFF])) =
      some (send 0 0 .encRsp 0xABCDEFFF) := by decide

/-- With an out-of-range command word on the port, which is ignored. -/
theorem test_step_cmdFrame_next :
    regsAfter (step (stateOf (send 3 0xA5 .encCmd 0x01F41402)
      [{ presenting 0x003E90101 with txReady := true }])) =
      some (send 4 0xA6 .encCmd 0x01F41402) ∧
    eventsAfter (step (stateOf (send 3 0xA5 .encCmd 0x01F41402)
      [{ presenting 0x003E90101 with txReady := true }])) = some [.tx 0x01 false] := by decide

theorem test_step_cmdFrame_last :
    regsAfter (step (stateOf (send 7 0xB0 .encCmd 0x01F41402) [ready])) =
      some (idle .encCmd 0x01F41402) ∧
    eventsAfter (step (stateOf (send 7 0xB0 .encCmd 0x01F41402) [ready])) = some [.tx 0xB0 true] := by
  decide

theorem test_step_rspFrame_next :
    regsAfter (step (stateOf (send 1 0x06 .encRsp 0x000000FF) [ready])) =
      some (send 2 0x05 .encRsp 0x000000FF) := by decide

theorem test_step_stall :
    regsAfter (step (stateOf (send 4 0x4A .encRsp 0x000000A0) [quiet])) =
      some (send 4 0x4A .encRsp 0x000000A0) ∧
    (stateOf (send 4 0x4A .encRsp 0x000000A0) [quiet]).output =
      some { cmdReady := false, rej := false, rejCause := 0, txValid := true, txData := 0x4A,
             txLast := true } := by decide

theorem test_step_reset_in_mid_frame :
    regsAfter (step (stateOf (send 7 0xB0 .encCmd 0x01F41402) [{ resetting with txReady := true }])) =
      some Regs.reset ∧
    eventsAfter (step (stateOf (send 7 0xB0 .encCmd 0x01F41402)
      [{ resetting with txReady := true }])) = some [.reset] := by decide

/-- Reset recovers from the states in which the step has no result. -/
theorem test_step_reset_recovers :
    regsAfter (step (stateOf (send 5 0x12 .encRsp 0x345678) [resetting])) = some Regs.reset := by
  decide

theorem test_step_undefined :
    step (stateOf (send 5 0x12 .encRsp 0x345678) [quiet]) = .fault .undefinedField := by rfl

/-! ### A word placed for the next step -/

theorem test_fetch_encCmd :
    regsAfter (step (State.reset.withFetchWord 40 0x001F41402)) =
      some (send 0 0 .encCmd 0x01F41402) := by decide
theorem test_fetch_encRsp :
    regsAfter (step (State.reset.withFetchWord 40 0x1000000A0)) =
      some (send 0 0 .encRsp 0x000000A0) := by decide
theorem test_fetch_cmdFrame :
    regsAfter (step (State.reset.withFetchWord 64 0x01A00401F41402B0)) =
      some (send 1 0x01 .encCmd 0x01F41402) := by decide
theorem test_fetch_rspFrame :
    regsAfter (step (State.reset.withFetchWord 40 0x06A004A04A)) =
      some (send 1 0x06 .encRsp 0x000000A0) := by decide

/-! ### Witnesses: the hypotheses of each statement can be met together -/

theorem witness_ResetArm : (stateOf (send 3 0xA5 .encCmd 0x01F41402) [resetting]).input.rst = true :=
  by decide

theorem witness_IdleWaitArm :
    let s := stateOf (idle .encRsp 0x000000A0) [quiet]
    s.input.rst = false ∧ s.regs.st = .idle ∧ s.input.cmdValid = false := by decide

theorem witness_AcceptArm :
    let s := stateOf (idle .encRsp 0x000000A0) [presenting 0x003E83D05]
    s.input.rst = false ∧ s.regs.st = .idle ∧ s.input.cmdValid = true ∧
      rangeCause s.input.cw = 0b000 ∧ quiet.rst = false := by decide

/-- The second clause's sample is the same one again. -/
theorem witness_RejectArm :
    let s := stateOf (idle .encCmd 0) [presenting 0x003E90101]
    s.input.rst = false ∧ s.regs.st = .idle ∧ s.input.cmdValid = true ∧
      rangeCause s.input.cw ≠ 0b000 ∧ (presenting 0x003E90101).rst = false ∧
      (presenting 0x003E90101).cmdValid = true ∧ (presenting 0x003E90101).cw = s.input.cw := by
  decide

theorem witness_SendNextArm :
    let s := stateOf (send 3 0xAA .encRsp 0x000000A0) [ready]
    s.input.rst = false ∧ s.regs.st = .send ∧ s.input.txReady = true ∧
      s.regs.idx ≠ lastIdx s.regs.opr ∧
      field s.regs.opr s.regs.idx s.regs.opd s.regs.acc = some 0xA0 := by decide

theorem witness_SendLastArm :
    let s := stateOf (send 4 0x4A .encRsp 0x000000A0) [ready]
    s.input.rst = false ∧ s.regs.st = .send ∧ s.input.txReady = true ∧
      s.regs.idx = lastIdx s.regs.opr := by decide

theorem witness_StallArm :
    let s := stateOf (send 7 0xB0 .encCmd 0x01F41402) [quiet]
    s.input.rst = false ∧ s.regs.st = .send ∧ s.input.txReady = false ∧
      field s.regs.opr s.regs.idx s.regs.opd s.regs.acc = some 0xB0 ∧ quiet.rst = false := by decide

/-- Both clauses, at the boundary between them: position 5 and position 4 of a response frame. -/
theorem witness_StepFaultsExactlyWhereFieldHasNoRow :
    let s := stateOf (send 5 0 .encRsp 0) [quiet]
    let t := stateOf (send 4 0 .encRsp 0) [quiet]
    (s.input.rst = false ∧ s.regs.st = .send ∧ s.regs.opr = .encRsp ∧ 5 ≤ s.regs.idx.toNat) ∧
      ¬(t.input.rst = false ∧ t.regs.st = .send ∧ t.regs.opr = .encRsp ∧ 5 ≤ t.regs.idx.toNat) := by
  decide

theorem witness_StepUsesOneSampleAndAddsAtMostOneEvent :
    ∃ t, step (stateOf (idle .encCmd 0) [quiet]) = .next t ∨
      ∃ i, exec i (stateOf (idle .encCmd 0) [quiet]) = .next t :=
  ⟨_, .inl rfl⟩

/-- Samples that differ in everything the arm does not read: in `IDLE` waiting, and in `SEND`. -/
theorem witness_InputsThatAnArmDoesNotReadDoNotMatter :
    let i : Input := { rst := false, cmdValid := false, cw := 1, txReady := false }
    let j : Input := { rst := false, cmdValid := false, cw := 2, txReady := true }
    let k : Input := { rst := false, cmdValid := true, cw := 3, txReady := true }
    (i.rst = j.rst ∧ i.cmdValid = j.cmdValid ∧ i.cmdValid = false ∧ i ≠ j) ∧
      (j.rst = k.rst ∧ j.txReady = k.txReady ∧ j ≠ k) := by decide

theorem witness_StepRunsPresentedCommand :
    let s := stateOf (idle .encCmd 0) [presenting 0x1000000A0]
    s.input.rst = false ∧ s.regs.st = .idle ∧ s.input.cmdValid = true ∧
      decode (.command s.input.cw) = .ok (.encRsp 0 0xA0) :=
  ⟨rfl, rfl, rfl, rfl⟩

theorem witness_StepRunsFrameInProgress :
    let s := stateOf (send 2 0x00 .encRsp 0x000000A0) [ready]
    s.input.rst = false ∧ s.regs.st = .send ∧
      decode (.frame (frame s.regs.opr s.regs.opd)) = .ok (.rspFrame 0xA0 0x4A) :=
  ⟨rfl, rfl, rfl⟩

theorem witness_ExecOfCommandIsTheStepThatPresentsIt :
    decode (.command 0x003E90101) = .ok (.encCmd 1001 1 1) := rfl

theorem witness_FetchedWordIsRunNext :
    decodeTableWord 64 0x01A00401F41402B0 = some (.cmdFrame 0x01 0xF4 0x14 0x02 0xB0) := by decide

/-- All bounds at once, at the greatest and at the least operands. -/
theorem witness_EncCmdInRangeIsAccepted :
    let s := stateOf (idle .encRsp 0x7B) [quiet]
    (s.input.rst = false ∧ s.regs.st = .idle) ∧
      ((1000#16).toNat ≤ 1000 ∧ 1 ≤ (61#8).toNat ∧ (61#8).toNat ≤ 61 ∧ 1 ≤ (5#8).toNat ∧
        (5#8).toNat ≤ 5) ∧
      ((0#16).toNat ≤ 1000 ∧ 1 ≤ (1#8).toNat ∧ (1#8).toNat ≤ 61 ∧ 1 ≤ (1#8).toNat ∧
        (1#8).toNat ≤ 5) := by decide

theorem witness_EncCmdOutOfRangeIsRejected :
    let s := stateOf (idle .encRsp 0x7B) [quiet]
    (s.input.rst = false ∧ s.regs.st = .idle) ∧
      ¬((1001#16).toNat ≤ 1000 ∧ (1 ≤ (1#8).toNat ∧ (1#8).toNat ≤ 61) ∧ 1 ≤ (1#8).toNat ∧
        (1#8).toNat ≤ 5) := by decide

theorem witness_EncRspIsAlwaysAccepted :
    let s := stateOf (idle .encCmd 0x01F41402) [quiet]
    s.input.rst = false ∧ s.regs.st = .idle := by decide

/-- At the last position and at the one before it. -/
theorem witness_CmdFrameInProgressSendsItsByte :
    let s := stateOf (send 7 0xB0 .encCmd 0x01F41402) [ready]
    let t := stateOf (send 6 0xAE .encCmd 0x01F41402) [ready]
    (s.input.rst = false ∧ s.regs.st = .send ∧ s.regs.opr = .encCmd ∧
      s.regs.opd = 0x01#8 ++ 0xF4#8 ++ 0x14#8 ++ 0x02#8 ∧ s.input.txReady = true) ∧
    (t.input.rst = false ∧ t.regs.st = .send ∧ t.regs.opr = .encCmd ∧
      t.regs.opd = 0x01#8 ++ 0xF4#8 ++ 0x14#8 ++ 0x02#8 ∧ t.input.txReady = true) := by decide

/-- Both clauses at their boundary: position 4 with a ready sink, position 5. -/
theorem witness_RspFrameInProgressSendsItsByte :
    let s := stateOf (send 4 0x4A .encRsp 0xABCDEFA0) [ready]
    let t := stateOf (send 5 0x4A .encRsp 0xABCDEFA0) [quiet]
    (s.input.rst = false ∧ s.regs.st = .send ∧ s.regs.opr = .encRsp ∧
      s.regs.opd.extractLsb' 0 8 = 0xA0#8 ∧ s.regs.idx.toNat ≤ 4 ∧ s.input.txReady = true) ∧
    (t.input.rst = false ∧ t.regs.st = .send ∧ t.regs.opr = .encRsp ∧
      t.regs.opd.extractLsb' 0 8 = 0xA0#8 ∧ 5 ≤ t.regs.idx.toNat) := by decide

theorem witness_FrameStepsKeepTheLatch :
    let s := stateOf (send 0 0 .encRsp 0x000000A0) [ready]
    let u := stateOf (send 0 0 .encCmd 0x01F41402) [quiet]
    (s.input.rst = false ∧ s.input.txReady = true ∧ ∃ t, exec (.rspFrame 0xA0 0x4A) s = .next t) ∧
    (u.input.rst = false ∧ u.input.txReady = false ∧
      ∃ t, exec (.cmdFrame 0x01 0xF4 0x14 0x02 0xB0) u = .next t) :=
  ⟨⟨rfl, rfl, _, rfl⟩, rfl, rfl, _, rfl⟩

theorem witness_CommandWhileSendingIsIgnored :
    let s := stateOf (send 3 0xA5 .encCmd 0x01F41402) [ready]
    s.input.rst = false ∧ s.regs.st = .send ∧
      decode (.command 0x003E90101) = .ok (.encCmd 1001 1 1) ∧
      decode (.frame (frame s.regs.opr s.regs.opd)) = .ok (.cmdFrame 0x01 0xF4 0x14 0x02 0xB0) ∧
      ∃ t, exec (.encCmd 1001 1 1) s = .next t :=
  ⟨rfl, rfl, rfl, rfl, _, rfl⟩

theorem witness_LatchIsWrittenOnlyByAcceptAndReset :
    ∃ t, exec (.encRsp 0 0xA0) (stateOf (idle .encCmd 0) [quiet]) = .next t := ⟨_, rfl⟩

theorem witness_ResetOverridesEveryInstruction :
    (stateOf (send 5 0x12 .encRsp 0x345678) [resetting]).input.rst = true := by decide

theorem witness_RejectIsRaisedExactlyWhen :
    ∃ o, outputs (idle .encCmd 0) (presenting 0x003E90001) = some o ∧ o.rej = true :=
  ⟨_, rfl, by decide⟩

theorem witness_OnlyTheRejectionDependsOnTheCommandPort :
    (presenting 0x003E90001).rst = quiet.rst ∧
    ∃ o p, outputs (idle .encCmd 0) (presenting 0x003E90001) = some o ∧
      outputs (idle .encCmd 0) quiet = some p ∧ o ≠ p :=
  ⟨rfl, _, _, rfl, rfl, by decide⟩

theorem witness_ByteIsTransferredExactlyWhenSinkIsReady :
    let s := stateOf (send 4 0x4A .encRsp 0x000000A0) [quiet]
    ∃ o t, s.output = some o ∧ step s = .next t ∧ o.txValid = true ∧ s.input.txReady = false ∧
      ready.rst = false :=
  ⟨_, _, rfl, rfl, rfl, rfl, rfl⟩

theorem witness_RangeCauseBits :
    (0x1FFFFFFFF : CommandWord).getLsbD 32 = true ∧
      (0x003E80101 : CommandWord).getLsbD 32 = false := by decide

theorem witness_NegativeBrightnessPatternIsRejected :
    ((-32768 : Int) ≤ -32768 ∧ (-32768 : Int) < 0) ∧ (-32768 : Int) ≤ -1 ∧ (-1 : Int) < 0 := by decide

theorem witness_ChecksumLaws : ([0x01, 0x02, 0x03] : List Byte).Perm [0x03, 0x02, 0x01] := by decide

/-- The bounds of the operands, at both ends. -/
theorem witness_CommandSumBounds :
    ((1000#16).toNat ≤ 1000 ∧ 1 ≤ (61#8).toNat ∧ (61#8).toNat ≤ 61 ∧ 1 ≤ (5#8).toNat ∧
      (5#8).toNat ≤ 5) ∧ (0#16).toNat ≤ 1000 ∧ 1 ≤ (1#8).toNat ∧ (1#8).toNat ≤ 61 ∧
      (1#8).toNat ≤ 5 := by decide

theorem witness_CommandFrameGivesItsOperandsBack :
    frame .encCmd 0x01F41402 = frame .encCmd 0x01F41402 := rfl

/-- The two clauses at the boundary of the brightness. -/
theorem witness_EncodeCommandIsTheFrameOrARejection :
    ((1000#16).toNat ≤ 1000 ∧ (1 ≤ (1#8).toNat ∧ (1#8).toNat ≤ 61) ∧ 1 ≤ (1#8).toNat ∧
      (1#8).toNat ≤ 5) ∧
    ¬((1001#16).toNat ≤ 1000 ∧ (1 ≤ (1#8).toNat ∧ (1#8).toNat ≤ 61) ∧ 1 ≤ (1#8).toNat ∧
      (1#8).toNat ≤ 5) := by decide

theorem witness_EncodeResponseIsTheFrame :
    (0xABCDEFFF : OperandWord).extractLsb' 0 8 = 0xFF#8 := by decide

theorem witness_EveryDecodedItemIsTheEncodingOfItsInstruction :
    decode (.frame [0x06, 0xA0, 0x04, 0xA0, 0x4A]) = .ok (.rspFrame 0xA0 0x4A) := rfl

theorem witness_HeaderTellsTheFormatsApart :
    decode (.frame [0x01, 0xA0, 0x04, 0, 0, 1, 1, 0xA7]) = .ok (.cmdFrame 0 0 1 1 0xA7) := rfl

theorem witness_SentFramesAreRecognised :
    rangeCause (commandWord .encCmd 0x03E83D05) = 0b000 := by decide

/-- A state in the middle of a frame whose events agree with its registers. -/
def midFrame (inputs : List Input) : State :=
  { regs := send 2 0xA6 .encRsp 0x000000A0, inputs := inputs, tick := 4,
    events := [.reset, .accept .encRsp 0x000000A0, .tx 0x06 false, .tx 0xA0 false] }

theorem midFrame_inv (inputs : List Input) : (midFrame inputs).Inv :=
  ⟨by simp only [midFrame]; decide, by simp only [midFrame]; decide⟩

theorem witness_StepKeepsTheRegisterInvariants :
    (midFrame [ready]).regs.Inv ∧ ∃ t, step (midFrame [ready]) = .next t :=
  ⟨(midFrame_inv _).1, _, rfl⟩

theorem witness_StepKeepsTheOrderOfEvents :
    (midFrame [ready]).Inv ∧ ∃ t, step (midFrame [ready]) = .next t :=
  ⟨midFrame_inv _, _, rfl⟩

theorem witness_InvariantStatesAlwaysStep : (midFrame []).regs.Inv := (midFrame_inv _).1

/-- A response command accepted over a stall: six steps, five of them with a ready sink. -/
theorem witness_AcceptedCommandSendsExactlyItsFrame :
    let s := stateOf (idle .encCmd 0)
      [presenting 0x1000000A0, ready, quiet, ready, ready, ready, ready]
    ∃ u, (s.input.rst = false ∧ s.regs.st = .idle ∧ s.input.cmdValid = true ∧
      rangeCause s.input.cw = 0b000) ∧ step s = .next u ∧ u.NoReset 6 ∧
      u.readySteps 6 = frameLength (cwOp s.input.cw) ∧ (u.inputAt (6 - 1)).txReady = true := by
  refine ⟨_, by decide, rfl, ?_, rfl, rfl⟩
  intro k hk
  interval_cases k <;> rfl

theorem witness_FrameCompletesExactlyWhenSinkIsReadyOftenEnough :
    (midFrame [ready, quiet, ready, ready]).regs.Inv ∧
      (midFrame [ready, quiet, ready, ready]).regs.st = .send ∧
      (midFrame [ready, quiet, ready, ready]).NoReset 4 := by
  refine ⟨(midFrame_inv _).1, rfl, ?_⟩
  intro k hk
  interval_cases k <;> rfl

theorem witness_FairSinkGetsEveryFrameWhole :
    SinkFair (fun _ => ready) ∧ NeverReset (fun _ => ready) ∧ (midFrame []).regs.Inv ∧
      (midFrame []).regs.st = .send :=
  ⟨fun k => ⟨k, Nat.le_refl k, rfl⟩, fun _ => rfl, (midFrame_inv _).1, rfl⟩

/-- A run in `IDLE` that shows a rejection and a whole frame. -/
def doneRun : State :=
  { regs := idle .encRsp 0x000000A0, inputs := [], tick := 7,
    events := [.reject 0x003E90101 0b001, .accept .encRsp 0x000000A0, .tx 0x06 false, .tx 0xA0 false,
      .tx 0x04 false, .tx 0xA0 false, .tx 0x4A true] }

theorem doneRun_inv : doneRun.Inv := ⟨by decide, by decide⟩

theorem witness_RunIsTheTransactionMachine :
    doneRun.Inv ∧ doneRun.regs.st = .idle ∧ Event.reset ∉ doneRun.events :=
  ⟨doneRun_inv, rfl, by decide⟩

theorem witness_OnlyCorrectFramesLeave :
    doneRun.Inv ∧
      EncodeResult.accepted [0x06, 0xA0, 0x04, 0xA0, 0x4A] ∈ results doneRun.events :=
  ⟨doneRun_inv, by decide⟩

theorem witness_NoByteAfterARejectionBeforeAnAccept :
    doneRun.Inv ∧ doneRun.events = [] ++ .reject 0x003E90101 0b001 ::
      ([.accept .encRsp 0x000000A0] ++ .tx 0x06 false ::
        [.tx 0xA0 false, .tx 0x04 false, .tx 0xA0 false, .tx 0x4A true]) :=
  ⟨doneRun_inv, rfl⟩

theorem witness_PastDoesNotReachLaterEvents :
    let s₁ := stateOf (idle .encCmd 0) [presenting 0x1000000A0, ready]
    let s₂ := stateOf { idle .encRsp 0xABCDEFFF with idx := 3, acc := 0x4A }
      [presenting 0x1000000A0, ready]
    ∃ t₁ t₂ : State, (s₁.regs.st = .idle ∧ s₂.regs.st = .idle ∧ s₁.inputs = s₂.inputs ∧
      s₁.tick = s₂.tick) ∧ Host.Core.run Sys2Proof.core 2 s₁ = .next t₁ ∧
      Host.Core.run Sys2Proof.core 2 s₂ = .next t₂ :=
  ⟨_, _, ⟨rfl, rfl, rfl, rfl⟩, rfl, rfl⟩

theorem witness_IgnoredBitsReachNoByte :
    let s := stateOf (idle .encCmd 0) [quiet, ready]
    ∃ t₁ t₂ : State, s.regs.st = .idle ∧ s.input.rst = false ∧
      Host.Core.run Sys2Proof.core 2 (s.present (1#1 ++ 0xABCDEF#24 ++ 0xFF#8)) = .next t₁ ∧
      Host.Core.run Sys2Proof.core 2 (s.present (1#1 ++ 0x000000#24 ++ 0xFF#8)) = .next t₂ :=
  ⟨_, _, rfl, rfl, rfl, rfl⟩

end Sys2Proof.Tests
end

