-- ==== Sys2Proof/Proofs/Rules.lean ====
section
/-!
SUPPORT. Facts that proofs about steps, instructions and runs share: what `step` is in each arm of R120, what a `SEND`
step keeps, everything that an instruction can do, the outputs of each phase, and an induction over a run.
-/

namespace Sys2Proof.Machine

/-! ### The step in each arm (R121 to R128) -/

theorem step_of_rst {s : State} (hr : s.input.rst = true) : step s = .next (resetStep s) := by
  rw [step_eq, if_pos hr]

theorem step_of_wait {s : State} (hr : s.input.rst = false) (hs : s.regs.st = .idle)
    (hv : s.input.cmdValid = false) : step s = .next (idleWait s) := by
  simp [step_eq, hr, hs, hv]

theorem step_of_accept {s : State} (hr : s.input.rst = false) (hs : s.regs.st = .idle)
    (hv : s.input.cmdValid = true) (hc : rangeCause s.input.cw = 0) :
    step s = .next (accept (cwOp s.input.cw) (cwOpd s.input.cw) s) := by
  simp [step_eq, hr, hs, hv, hc]

theorem step_of_reject {s : State} (hr : s.input.rst = false) (hs : s.regs.st = .idle)
    (hv : s.input.cmdValid = true) (hc : rangeCause s.input.cw ≠ 0) :
    step s = .next (raiseReject s.input.cw (rangeCause s.input.cw) s) := by
  simp only [step_eq, hr, hs, hv, if_neg hc]
  rfl

theorem step_of_send {s : State} (hr : s.input.rst = false) (hs : s.regs.st = .send) :
    step s = sendStep s := by
  simp [step_eq, hr, hs]

/-- In `IDLE` a presented command word is decoded and run. -/
theorem step_of_presented {s : State} (hr : s.input.rst = false) (hs : s.regs.st = .idle)
    (hv : s.input.cmdValid = true) : step s = exec (decodeCommand s.input.cw) s := by
  simp [step, hr, hs, hv]

/-! ### What a `SEND` step keeps and records -/

theorem sendStep_keeps_latch {s t : State} (h : sendStep s = .next t) :
    t.regs.opr = s.regs.opr ∧ t.regs.opd = s.regs.opd := by
  obtain ⟨b, -, ⟨-, rfl⟩ | ⟨-, -, rfl⟩ | ⟨-, -, rfl⟩⟩ := sendStep_cases h
  · exact ⟨rfl, rfl⟩
  · exact ⟨rfl, rfl⟩
  · exact ⟨rfl, rfl⟩

theorem sendStep_of_sink_not_ready {s t : State} (h : sendStep s = .next t)
    (hn : s.input.txReady = false) : t = stall s := by
  obtain ⟨b, -, ⟨-, ht⟩ | ⟨hy, -⟩ | ⟨hy, -⟩⟩ := sendStep_cases h
  · exact ht
  · simp [hn] at hy
  · simp [hn] at hy

/-- With a ready sink a `SEND` step records one transfer, and the phase changes with the last one only. -/
theorem sendStep_of_sink_ready {s t : State} (h : sendStep s = .next t)
    (hy : s.input.txReady = true) :
    ∃ b last, t.events = s.events ++ [.tx b last] ∧ (last = false → t.regs.st = s.regs.st) := by
  obtain ⟨b, -, ⟨hn, -⟩ | ⟨-, -, rfl⟩ | ⟨-, -, rfl⟩⟩ := sendStep_cases h
  · simp [hy] at hn
  · exact ⟨b, false, rfl, fun _ => rfl⟩
  · exact ⟨b, true, rfl, nofun⟩

/-! ### Everything that an instruction can do -/

/-- Outside reset a frame instruction with a next state is the `SEND` step. -/
theorem sendStep_of_whenInFlight {s t : State} {inFlight : Bool} (hr : s.input.rst = false)
    (h : whenInFlight s inFlight = .next t) : sendStep s = .next t := by
  obtain ⟨hr', -⟩ | ⟨-, -, -, ht⟩ := whenInFlight_cases h
  · simp [hr] at hr'
  · exact ht

/-- Everything that an instruction with a next state can be: reset, an accept or a rejection in `IDLE`, a step of the
frame in progress. -/
theorem exec_cases {i : Instr} {s t : State} (h : exec i s = .next t) :
    (s.input.rst = true ∧ t = resetStep s) ∨
    (s.input.rst = false ∧ s.regs.st = .idle ∧ ∃ cw, i = decodeCommand cw ∧ rangeCause cw = 0 ∧
      t = accept (cwOp cw) (cwOpd cw) s) ∨
    (s.input.rst = false ∧ s.regs.st = .idle ∧ ∃ cw, i = decodeCommand cw ∧ rangeCause cw ≠ 0 ∧
      t = raiseReject cw (rangeCause cw) s) ∨
    (s.input.rst = false ∧ s.regs.st = .send ∧ sendStep s = .next t) := by
  have kind : (∃ cw, i = decodeCommand cw) ∨ ∃ inFlight, whenInFlight s inFlight = .next t := by
    cases i with
    | encCmd bri ct duv => exact .inl ⟨_, (decodeCommand_encCmd bri ct duv).symm⟩
    | encRsp ign cid => exact .inl ⟨_, (decodeCommand_encRsp ign cid).symm⟩
    | cmdFrame high low ct duv sum => exact .inr ⟨_, h⟩
    | rspFrame cid sum => exact .inr ⟨_, h⟩
  obtain ⟨cw, rfl⟩ | ⟨inFlight, hf⟩ := kind
  · rw [exec_decodeCommand] at h
    obtain hreset | ⟨hr, hs, rfl⟩ | hsend := whenSampled_cases h
    · exact .inl hreset
    · by_cases hc : rangeCause cw = 0
      · exact .inr (.inl ⟨hr, hs, cw, rfl, hc, if_pos hc⟩)
      · exact .inr (.inr (.inl ⟨hr, hs, cw, rfl, hc, if_neg hc⟩))
    · exact .inr (.inr (.inr hsend))
  · obtain hreset | ⟨hr, hs, -, ht⟩ := whenInFlight_cases hf
    · exact .inl hreset
    · exact .inr (.inr (.inr ⟨hr, hs, ht⟩))

/-! ### The frame instructions in progress -/

theorem exec_cmdFrame_of_inFlight {s : State} {high low ct duv : Byte} (sum : Byte)
    (hr : s.input.rst = false) (hs : s.regs.st = .send) (ho : s.regs.opr = .encCmd)
    (hd : s.regs.opd = cmdOpd (high ++ low) ct duv) :
    exec (.cmdFrame high low ct duv sum) s = sendStep s := by
  simp [exec, execCmdFrame, whenInFlight, hr, hs, ho, hd]

theorem exec_rspFrame_of_inFlight {s : State} {cid : Byte} (sum : Byte)
    (hr : s.input.rst = false) (hs : s.regs.st = .send) (ho : s.regs.opr = .encRsp)
    (hd : opdCid s.regs.opd = cid) : exec (.rspFrame cid sum) s = sendStep s := by
  simp [exec, execRspFrame, whenInFlight, hr, hs, ho, hd]

/-! ### The outputs of each phase (R18) -/

theorem outputs_of_rst {r : Regs} {i : Input} (hr : i.rst = true) :
    outputs r i = some quietOutput :=
  if_pos hr

theorem outputs_of_idle {r : Regs} {i : Input} (hr : i.rst = false) (hs : r.st = .idle) :
    outputs r i = some (idleOutput (if i.cmdValid then rangeCause i.cw else 0)) := by
  simp [outputs, hr, hs]

theorem outputs_of_send {r : Regs} {i : Input} (hr : i.rst = false) (hs : r.st = .send) :
    outputs r i = (field r.opr r.idx r.opd r.acc).map fun b =>
      txOutput b (r.idx == lastIdx r.opr) := by
  simp [outputs, hr, hs]

/-! ### Runs -/

/-- A run of one step more that ends in a state is a step and the run from there. -/
theorem run_succ_cases {s u : State} {n : Nat}
    (h : Host.Core.run Sys2Proof.core (n + 1) s = .next u) :
    ∃ t, step s = .next t ∧ Host.Core.run Sys2Proof.core n t = .next u := by
  cases hs : step s with
  | next t => exact ⟨t, rfl, (run_succ_of_next hs n).symm.trans h⟩
  | fault r => exact nomatch (run_succ_of_fault hs n).symm.trans h
  | refused r => exact nomatch (run_succ_of_refused hs n).symm.trans h

/-- What every state with `P` steps to, again with `P`, every run from such a state reaches. -/
theorem run_of_invariant {P : State → Prop} (hP : ∀ s, P s → ∃ t, step s = .next t ∧ P t)
    {s : State} (hs : P s) (n : Nat) :
    ∃ t, Host.Core.run Sys2Proof.core n s = .next t ∧ P t := by
  induction n generalizing s with
  | zero => exact ⟨s, run_zero s, hs⟩
  | succ n ih =>
    obtain ⟨t, hst, ht⟩ := hP s hs
    obtain ⟨u, hrun, hu⟩ := ih ht
    exact ⟨u, (run_succ_of_next hst n).trans hrun, hu⟩

end Sys2Proof.Machine
end

