-- ==== Sys2Proof/Proofs/Invariant.lean ====
section
/-!
The invariants of R22 and the order of events: they hold at reset and every step keeps them, so every run from reset has
them. The accumulator is the checksum of the bytes already sent, so in such a state the multiplexer offers the byte of
the frame at every position, the checksum byte too (`field_of_inv`).
-/

namespace Sys2Proof.Machine

/-! ### The frame and the multiplexer -/

theorem frame_lastIdx (op : Operation) (opd : OperandWord) :
    (frame op opd)[(lastIdx op).toNat]? =
      some (checksum ((frame op opd).take (lastIdx op).toNat)) := by
  cases op <;> rfl

theorem Regs.Inv.idx_le {r : Regs} (h : r.Inv) (hs : r.st = .send) :
    r.idx.toNat ≤ (lastIdx r.opr).toNat :=
  h.2.1 hs

/-- A position that is not the last is below it. -/
theorem Regs.Inv.idx_lt {r : Regs} (h : r.Inv) (hs : r.st = .send) (hl : r.idx ≠ lastIdx r.opr) :
    r.idx.toNat < (lastIdx r.opr).toNat :=
  BitVec.lt_of_le_ne (h.idx_le hs) hl

theorem Regs.Inv.acc_eq {r : Regs} (h : r.Inv) (hs : r.st = .send) :
    r.acc = checksum ((frame r.opr r.opd).take r.idx.toNat) :=
  h.2.2.1 hs

theorem field_of_inv {r : Regs} (h : r.Inv) (hs : r.st = .send) :
    field r.opr r.idx r.opd r.acc = (frame r.opr r.opd)[r.idx.toNat]? := by
  rw [field_eq _ _ _ _ (h.idx_le hs)]
  split
  · next hl => rw [hl, frame_lastIdx, h.acc_eq hs, hl]
  · rfl

theorem exists_field_of_inv {r : Regs} (h : r.Inv) (hs : r.st = .send) :
    ∃ b, field r.opr r.idx r.opd r.acc = some b := by
  have hlt : r.idx.toNat < (frame r.opr r.opd).length := by
    rw [frame_length, frameLength]
    exact Nat.lt_succ_of_le (h.idx_le hs)
  exact ⟨_, (field_of_inv h hs).trans (List.getElem?_eq_getElem hlt)⟩

/-- The checksum of one byte more of a list. -/
theorem checksum_take_succ {l : List Byte} {n : Nat} {b : Byte} (h : l[n]? = some b) :
    checksum (l.take (n + 1)) = checksum (l.take n) + b := by
  rw [List.take_add_one, h, Option.toList_some, checksum_snoc]

/-- Before the last position the index does not wrap around. -/
theorem toNat_succ_of_lt_lastIdx {i : BitVec 3} {op : Operation}
    (h : i.toNat < (lastIdx op).toNat) : (i + 1).toNat = i.toNat + 1 := by
  have := (lastIdx op).isLt
  have h1 : (1 : BitVec 3).toNat = 1 := rfl
  rw [BitVec.toNat_add_of_lt (by omega), h1]

/-! ### The invariants of the registers, arm by arm (R22) -/

theorem Regs.inv_of_idle {r : Regs} (hs : r.st = .idle) (hi : r.idx = 0) (ha : r.acc = 0) :
    r.Inv := by
  simp [Regs.Inv, hs, hi, ha]

theorem Regs.reset_inv : Regs.reset.Inv := Regs.inv_of_idle rfl rfl rfl

theorem accept_inv {op : Operation} {opd : OperandWord} (s : State)
    (hc : rangeCause (commandWord op opd) = 0) : (accept op opd s).regs.Inv := by
  refine ⟨nofun, fun _ => Nat.zero_le _, fun _ => rfl, ?_⟩
  rintro - (rfl : op = .encCmd)
  simpa only [accept_regs, rangeCause_encCmd_eq_zero, briInRange_iff, ctInRange_iff, duvInRange_iff] using hc

theorem sendLast_inv (b : Byte) (s : State) : (sendLast b s).regs.Inv :=
  Regs.inv_of_idle rfl rfl rfl

theorem sendNext_inv {s : State} {b : Byte} (h : s.regs.Inv) (hs : s.regs.st = .send)
    (hf : field s.regs.opr s.regs.idx s.regs.opd s.regs.acc = some b)
    (hl : s.regs.idx ≠ lastIdx s.regs.opr) : (sendNext b s).regs.Inv := by
  have hb := (field_of_inv h hs).symm.trans hf
  have hlt := h.idx_lt hs hl
  have hsucc := toNat_succ_of_lt_lastIdx hlt
  have hacc := h.acc_eq hs
  obtain ⟨-, -, -, hrange⟩ := h
  refine ⟨by simp [hs], fun _ => ?_, fun _ => ?_, hrange⟩
  · exact BitVec.le_def.mpr (hsucc ▸ hlt)
  · simp only [sendNext_regs, hsucc, checksum_take_succ hb, hacc]

theorem sendStep_keeps_regsInv {s t : State} (h : s.regs.Inv) (hs : s.regs.st = .send)
    (ht : sendStep s = .next t) : t.regs.Inv := by
  obtain ⟨b, hf, ⟨-, rfl⟩ | ⟨-, hl, rfl⟩ | ⟨-, -, rfl⟩⟩ := sendStep_cases ht
  · exact h
  · exact sendNext_inv h hs hf hl
  · exact sendLast_inv b s

theorem step_keeps_regsInv {s t : State} (h : s.regs.Inv) (ht : step s = .next t) :
    t.regs.Inv := by
  obtain ⟨-, rfl⟩ | ⟨-, -, -, rfl⟩ | ⟨-, -, -, hc, rfl⟩ | ⟨-, -, -, -, rfl⟩ | ⟨-, hs, ht⟩ :=
    step_cases ht
  · exact Regs.reset_inv
  · exact h
  · exact accept_inv s (by rwa [commandWord_cwOp_cwOpd])
  · exact h
  · exact sendStep_keeps_regsInv h hs ht

/-- Settles O46: each arm of the step keeps the invariants. -/
theorem stepKeepsTheRegisterInvariants : Obligations.StepKeepsTheRegisterInvariants :=
  fun _ _ => step_keeps_regsInv

/-- Settles O45: the invariants of R22 say of `IDLE` only that `idx` and `acc` are 0. -/
theorem resetStateHasTheInvariants : Obligations.ResetStateHasTheInvariants :=
  ⟨rfl, Regs.reset_inv, rfl⟩

/-! ### There is always a next state -/

theorem exists_step_of_regsInv {s : State} (h : s.regs.Inv) : ∃ t, step s = .next t := by
  cases hr : s.input.rst with
  | true => exact ⟨_, step_of_rst hr⟩
  | false =>
    cases hs : s.regs.st with
    | send =>
      obtain ⟨b, hf⟩ := exists_field_of_inv h hs
      exact ⟨_, (step_of_send hr hs).trans (sendStep_of_field hf)⟩
    | idle =>
      cases hv : s.input.cmdValid with
      | false => exact ⟨_, step_of_wait hr hs hv⟩
      | true =>
        by_cases hc : rangeCause s.input.cw = 0
        · exact ⟨_, step_of_accept hr hs hv hc⟩
        · exact ⟨_, step_of_reject hr hs hv hc⟩

/-- Settles O48: the only fault is a `SEND` step where `Field` has no row, and the invariants exclude it. -/
theorem invariantStatesAlwaysStep : Obligations.InvariantStatesAlwaysStep :=
  fun _ => exists_step_of_regsInv

/-! ### The order of events, arm by arm (R131, R132) -/

theorem history_snoc (es : List Event) (e : Event) :
    history (es ++ [e]) = (history es).bind fun l => l.after e := by
  simp [history]

theorem Regs.link_of_idle {r : Regs} (hs : r.st = .idle) : r.link = .idle := by
  simp [Regs.link, hs]

theorem Regs.link_of_send {r : Regs} (hs : r.st = .send) :
    r.link = .sending r.opr r.opd r.idx.toNat := by
  simp [Regs.link, hs]

theorem Link.after_reset (l : Link) : l.after .reset = some .idle := rfl

theorem Link.after_accept {op : Operation} {opd : OperandWord}
    (hc : rangeCause (commandWord op opd) = 0) :
    Link.idle.after (.accept op opd) = some (.sending op opd 0) :=
  if_pos hc

theorem Link.after_reject {cw : CommandWord} (hc : rangeCause cw ≠ 0) :
    Link.idle.after (.reject cw (rangeCause cw)) = some .idle :=
  if_pos ⟨rfl, hc⟩

theorem Link.after_tx {op : Operation} {opd : OperandWord} {sent : Nat} {b : Byte} {last : Bool}
    (hb : (frame op opd)[sent]? = some b) (hl : last = decide (sent + 1 = frameLength op)) :
    (Link.sending op opd sent).after (.tx b last) =
      some (if last then .idle else .sending op opd (sent + 1)) :=
  if_pos ⟨hb, hl⟩

theorem State.Inv.regsInv {s : State} (h : s.Inv) : s.regs.Inv := h.1

theorem State.Inv.history_eq {s : State} (h : s.Inv) : history s.events = some s.regs.link := h.2

/-- A step keeps the invariant of a run if it keeps those of the registers and its event may come now. -/
theorem State.Inv.of_event {s t : State} {e : Event} (h : s.Inv) (ht : t.regs.Inv)
    (he : t.events = s.events ++ [e]) (hl : s.regs.link.after e = some t.regs.link) : t.Inv :=
  ⟨ht, by rw [he, history_snoc, h.history_eq, Option.bind_some, hl]⟩

theorem State.Inv.of_same {s t : State} (h : s.Inv) (hr : t.regs = s.regs)
    (he : t.events = s.events) : t.Inv := by
  rwa [State.Inv, hr, he]

/-- The position is that of the checksum byte exactly when the byte sent there is the frame's last. -/
theorem eq_lastIdx_iff (i : BitVec 3) (op : Operation) :
    i = lastIdx op ↔ i.toNat + 1 = frameLength op := by
  rw [frameLength, Nat.add_right_cancel_iff, BitVec.toNat_inj]

theorem sendStep_keeps_inv {s t : State} (h : s.Inv) (hs : s.regs.st = .send)
    (ht : sendStep s = .next t) : t.Inv := by
  have hregs := sendStep_keeps_regsInv h.regsInv hs ht
  obtain ⟨b, hf, ⟨-, rfl⟩ | ⟨-, hl, rfl⟩ | ⟨-, hl, rfl⟩⟩ := sendStep_cases ht
  · exact h.of_same (stall_regs s) (stall_events s)
  · have hb := (field_of_inv h.regsInv hs).symm.trans hf
    have hsucc := toNat_succ_of_lt_lastIdx (h.regsInv.idx_lt hs hl)
    refine h.of_event hregs (sendNext_events b s) ?_
    rw [Regs.link_of_send hs, Link.after_tx hb (by simpa [eq_lastIdx_iff] using hl)]
    rw [Regs.link_of_send (r := (sendNext b s).regs) hs, sendNext_regs, hsucc]
    rfl
  · have hb := (field_of_inv h.regsInv hs).symm.trans hf
    refine h.of_event hregs (sendLast_events b s) ?_
    rw [Regs.link_of_send hs, Link.after_tx hb (by simpa [eq_lastIdx_iff] using hl)]
    rfl

theorem step_keeps_inv {s t : State} (h : s.Inv) (ht : step s = .next t) : t.Inv := by
  have hregs := step_keeps_regsInv h.regsInv ht
  obtain ⟨-, rfl⟩ | ⟨-, -, -, rfl⟩ | ⟨-, hs, -, hc, rfl⟩ | ⟨-, hs, -, hc, rfl⟩ | ⟨-, hs, ht⟩ :=
    step_cases ht
  · exact h.of_event hregs (resetStep_events s) (Link.after_reset _)
  · exact h.of_same (idleWait_regs s) (idleWait_events s)
  · refine h.of_event hregs (accept_events _ _ s) ?_
    rw [Regs.link_of_idle hs, Link.after_accept (by rwa [commandWord_cwOp_cwOpd])]
    rfl
  · refine h.of_event hregs (raiseReject_events _ _ s) ?_
    rw [raiseReject_regs, Regs.link_of_idle hs, Link.after_reject hc]
  · exact sendStep_keeps_inv h hs ht

/-! ### Runs from reset -/

theorem exists_step_of_inv {s : State} (h : s.Inv) : ∃ t, step s = .next t ∧ t.Inv := by
  obtain ⟨t, ht⟩ := exists_step_of_regsInv h.regsInv
  exact ⟨t, ht, step_keeps_inv h ht⟩

/-- Settles O49: the invariant holds at reset, whatever the inputs, and every state with it steps to one with it. -/
theorem everyRunFromResetIsSafe : Obligations.EveryRunFromResetIsSafe := by
  intro inputs n
  have hreset : (State.reset.withInputs inputs).Inv := resetStateHasTheInvariants.2
  exact run_of_invariant (fun _ => exists_step_of_inv) hreset n

end Sys2Proof.Machine
end

