-- ==== Sys2Proof/Proofs/Past.lean ====
section
/-!
Nothing from before an operation reaches what comes after (R21): a simulation between two machines that see the same
inputs. They are alike while both are in `IDLE`, whatever else their registers hold, or their registers are equal; an
accept or a reset takes the first case to the second.
-/

namespace Sys2Proof.Machine

/-- Registers from which the same events follow. -/
def Regs.Alike (r₁ r₂ : Regs) : Prop := r₁ = r₂ ∨ (r₁.st = .idle ∧ r₂.st = .idle)

/-- States from which the same events follow: alike registers, and the same samples to come. -/
structure State.Alike (s₁ s₂ : State) : Prop where
  regs : s₁.regs.Alike s₂.regs
  inputs : s₁.inputs = s₂.inputs
  tick : s₁.tick = s₂.tick

theorem Regs.Alike.st_eq {r₁ r₂ : Regs} (h : r₁.Alike r₂) : r₁.st = r₂.st := by
  obtain rfl | ⟨h₁, h₂⟩ := h
  · rfl
  · exact h₁.trans h₂.symm

theorem Regs.Alike.eq_of_send {r₁ r₂ : Regs} (h : r₁.Alike r₂) (hs : r₁.st = .send) : r₁ = r₂ := by
  obtain rfl | ⟨h₁, -⟩ := h
  · rfl
  · simp [hs] at h₁

theorem State.Alike.input_eq {s₁ s₂ : State} (h : s₁.Alike s₂) : s₁.input = s₂.input := by
  simp only [State.input, State.inputAt, h.inputs, h.tick]

theorem State.Alike.advance {s₁ s₂ : State} (h : s₁.Alike s₂) {r₁ r₂ : Regs} (hr : r₁.Alike r₂)
    (e : List Event) : (s₁.advance r₁ e).Alike (s₂.advance r₂ e) where
  regs := hr
  inputs := congrArg List.tail h.inputs
  tick := congrArg (· + 1) h.tick

/-- A `SEND` step reads the registers and the sample only. -/
theorem sendStep_of_same {s₁ s₂ t₁ : State} (hr : s₁.regs = s₂.regs) (hi : s₁.input = s₂.input)
    (h₁ : sendStep s₁ = .next t₁) :
    ∃ r e, t₁ = s₁.advance r e ∧ sendStep s₂ = .next (s₂.advance r e) := by
  obtain ⟨b, hf, h⟩ := sendStep_cases h₁
  rw [sendStep_of_field (hr ▸ hf), ← hr, ← hi]
  obtain ⟨hy, rfl⟩ | ⟨hy, hl, rfl⟩ | ⟨hy, hl, rfl⟩ := h
  · exact ⟨_, _, rfl, by simp [hy, stall, hr]⟩
  · exact ⟨_, _, rfl, by rw [if_pos hy, if_neg hl, sendNext, hr]⟩
  · exact ⟨_, _, rfl, by rw [if_pos hy, if_pos hl, sendLast, hr]⟩

/-- Alike states step alike, with the same events. -/
theorem step_of_alike {s₁ s₂ t₁ : State} (h : s₁.Alike s₂) (h₁ : step s₁ = .next t₁) :
    ∃ r₁ r₂ e, t₁ = s₁.advance r₁ e ∧ step s₂ = .next (s₂.advance r₂ e) ∧ r₁.Alike r₂ := by
  have hi := h.input_eq
  have hst := h.regs.st_eq
  obtain ⟨hr, rfl⟩ | ⟨hr, hs, hv, rfl⟩ | ⟨hr, hs, hv, hc, rfl⟩ | ⟨hr, hs, hv, hc, rfl⟩ |
    ⟨hr, hs, ht⟩ := step_cases h₁ <;> rw [hi] at hr
  · exact ⟨_, _, _, rfl, step_of_rst hr, .inl rfl⟩
  · rw [hi] at hv
    exact ⟨_, _, _, rfl, step_of_wait hr (hst ▸ hs) hv, h.regs⟩
  · rw [hi] at hv hc ⊢
    exact ⟨_, _, _, rfl, step_of_accept hr (hst ▸ hs) hv hc, .inl rfl⟩
  · rw [hi] at hv hc ⊢
    exact ⟨_, _, _, rfl, step_of_reject hr (hst ▸ hs) hv hc, h.regs⟩
  · obtain ⟨r, e, rfl, h₂⟩ := sendStep_of_same (h.regs.eq_of_send hs) hi ht
    exact ⟨r, r, e, rfl, (step_of_send hr (hst ▸ hs)).trans h₂, .inl rfl⟩

theorem run_of_alike {s₁ s₂ t₁ t₂ : State} {n : Nat} (h : s₁.Alike s₂)
    (h₁ : Host.Core.run Sys2Proof.core n s₁ = .next t₁)
    (h₂ : Host.Core.run Sys2Proof.core n s₂ = .next t₂) :
    ∃ e, t₁.events = s₁.events ++ e ∧ t₂.events = s₂.events ++ e := by
  induction n generalizing s₁ s₂ with
  | zero =>
    cases h₁
    cases h₂
    exact ⟨[], by simp⟩
  | succ n ih =>
    obtain ⟨u₁, hu₁, h₁⟩ := run_succ_cases h₁
    obtain ⟨u₂, hu₂, h₂⟩ := run_succ_cases h₂
    obtain ⟨r₁, r₂, e, rfl, hstep, hr⟩ := step_of_alike h hu₁
    obtain rfl : s₂.advance r₂ e = u₂ := Host.Outcome.next.inj (hstep.symm.trans hu₂)
    obtain ⟨e', he₁, he₂⟩ := ih (h.advance hr e) h₁ h₂
    exact ⟨e ++ e', by simp [he₁], by simp [he₂]⟩

/-- Settles O56: two `IDLE` states with the same inputs to come are alike, and alike states run alike. -/
theorem pastDoesNotReachLaterEvents : Obligations.PastDoesNotReachLaterEvents := by
  intro s₁ s₂ t₁ t₂ n hs₁ hs₂ hinputs htick h₁ h₂
  have h : s₁.Alike s₂ := ⟨.inr ⟨hs₁, hs₂⟩, hinputs, htick⟩
  exact run_of_alike h h₁ h₂

end Sys2Proof.Machine
end

