-- ==== Sys2Proof/Proofs/Instructions.lean ====
section
/-!
The latch under each instruction (R11), the word that `withFetchWord` places (notes/assumptions/11.md), and what the
outputs depend on (R18).
-/

namespace Sys2Proof.Machine

/-! ### The latch -/

/-- Settles O20: outside reset a frame instruction is the `SEND` step. -/
theorem frameStepsKeepTheLatch : Obligations.FrameStepsKeepTheLatch := by
  intro s t i hi hr h
  have hsend : sendStep s = .next t := by
    obtain ⟨high, low, ct, duv, sum, rfl⟩ | ⟨cid, sum, rfl⟩ := hi
    · exact sendStep_of_whenInFlight hr h
    · exact sendStep_of_whenInFlight hr h
  obtain ⟨hopr, hopd⟩ := sendStep_keeps_latch hsend
  refine ⟨hopr, hopd, fun hn => ?_, sendStep_of_sink_ready hsend⟩
  obtain rfl := sendStep_of_sink_not_ready hsend hn
  exact ⟨stall_regs s, stall_events s⟩

/-- Settles O23, by the four things that an instruction can do. -/
theorem latchIsWrittenOnlyByAcceptAndReset : Obligations.LatchIsWrittenOnlyByAcceptAndReset := by
  intro i s t h
  obtain ⟨-, rfl⟩ | ⟨-, -, cw, -, -, rfl⟩ | ⟨-, -, cw, -, -, rfl⟩ | ⟨-, -, hsend⟩ := exec_cases h
  · exact .inr (.inl ⟨rfl, rfl, rfl⟩)
  · exact .inr (.inr rfl)
  · exact .inl ⟨rfl, rfl⟩
  · exact .inl (sendStep_keeps_latch hsend)

/-! ### A word placed for the next step -/

theorem decodeTableWord_eq_some {nbits w : Nat} {i : Instr} (h : decodeTableWord nbits w = some i) :
    ∃ image, tableImage nbits w = some image ∧ decode image = .ok i := by
  unfold decodeTableWord at h
  cases hi : tableImage nbits w with
  | none => simp [hi] at h
  | some image =>
    cases hd : decode image with
    | ok j => exact ⟨image, rfl, by simpa [hi, hd] using h⟩
    | error e => simp [hi, hd] at h

theorem State.withFetchWord_of_image {nbits w : Nat} {image : Image}
    (h : tableImage nbits w = some image) (s : State) :
    s.withFetchWord nbits w = s.fetchImage image := by
  simp [State.withFetchWord, h]

theorem State.fetchImage_command (s : State) (cw : CommandWord) :
    s.fetchImage (.command cw) = s.fetchCommand cw := by
  cases h : cwOp cw <;> simp [State.fetchImage, decodeCommand, h, State.fetchInstr]

theorem State.fetchImage_frame {bytes : List Byte} {i : Instr} (h : decodeFrame bytes = .ok i)
    (s : State) : s.fetchImage (.frame bytes) = s.fetchInstr 0 i := by
  simp [State.fetchImage, h]

theorem decodeCmdFrame_eq_ok {bytes : List Byte} {i : Instr} (h : decodeCmdFrame bytes = .ok i) :
    ∃ high low ct duv sum,
      bytes = [Config.protocol.cmdId, Config.protocol.lenCmd, high, low, ct, duv, sum] ∧
        i = .cmdFrame high low ct duv sum := by
  unfold decodeCmdFrame at h
  split at h
  · split_ifs at h with hid hlen
    cases h
    simp only [bne_iff_ne, ne_eq, not_not] at hid hlen
    exact ⟨_, _, _, _, _, by rw [hid, hlen], rfl⟩
  · cases h

theorem decodeRspFrame_eq_ok {bytes : List Byte} {i : Instr} (h : decodeRspFrame bytes = .ok i) :
    ∃ cid sum, bytes = [cid, Config.protocol.lenRsp, cid, sum] ∧ i = .rspFrame cid sum := by
  unfold decodeRspFrame at h
  split at h
  · split_ifs at h with hlen hecho
    cases h
    simp only [bne_iff_ne, ne_eq, not_not] at hlen hecho
    exact ⟨_, _, by rw [hlen, hecho], rfl⟩
  · cases h

/-- The two formats that bytes can decode to (R54, R56, R64): no bytes stand for an operation. -/
theorem decodeFrame_eq_ok {bytes : List Byte} {i : Instr} (h : decodeFrame bytes = .ok i) :
    (∃ high low ct duv sum,
      bytes = [Config.protocol.hdrCmd, Config.protocol.cmdId, Config.protocol.lenCmd, high, low,
        ct, duv, sum] ∧ i = .cmdFrame high low ct duv sum) ∨
    ∃ cid sum, bytes = [Config.protocol.hdrAck, cid, Config.protocol.lenRsp, cid, sum] ∧
      i = .rspFrame cid sum := by
  cases bytes with
  | nil => cases h
  | cons header rest =>
    rw [decodeFrame] at h
    split_ifs at h with hcmd hack
    · obtain ⟨high, low, ct, duv, sum, rfl, rfl⟩ := decodeCmdFrame_eq_ok h
      exact .inl ⟨high, low, ct, duv, sum, by rw [hcmd], rfl⟩
    · obtain ⟨cid, sum, rfl, rfl⟩ := decodeRspFrame_eq_ok h
      exact .inr ⟨cid, sum, by rw [hack], rfl⟩

@[simp] theorem idleRegs_st (r : Regs) : (idleRegs r).st = .idle := by
  cases h : r.st <;> simp [idleRegs, h]

theorem step_fetchCommand (s : State) (cw : CommandWord) :
    step (s.fetchCommand cw) = exec (decodeCommand cw) (s.fetchCommand cw) :=
  step_of_presented rfl (idleRegs_st s.regs) rfl

theorem step_fetchFrame (s : State) (op : Operation) (opd : OperandWord) :
    step (s.fetchFrame op opd) = sendStep (s.fetchFrame op opd) :=
  step_of_send rfl rfl

/-- Settles O14: the placed word is a command word in `IDLE` or a frame in progress at its first byte. -/
theorem fetchedWordIsRunNext : Obligations.FetchedWordIsRunNext := by
  intro s nbits w i h
  obtain ⟨image, himage, hd⟩ := decodeTableWord_eq_some h
  rw [State.withFetchWord_of_image himage]
  cases image with
  | command cw =>
    obtain rfl : decodeCommand cw = i := Except.ok.inj hd
    rw [State.fetchImage_command]
    exact step_fetchCommand s cw
  | frame bytes =>
    rw [State.fetchImage_frame hd]
    obtain ⟨high, low, ct, duv, sum, -, rfl⟩ | ⟨cid, sum, -, rfl⟩ := decodeFrame_eq_ok hd
    · exact (step_fetchFrame s _ _).trans (exec_cmdFrame_of_inFlight sum rfl rfl rfl rfl).symm
    · exact (step_fetchFrame s _ _).trans
        (exec_rspFrame_of_inFlight sum rfl rfl rfl (opdCid_rspOpd _ _)).symm

/-! ### The outputs -/

/-- Settles O26: in each phase only the rejection reads the command port. -/
theorem onlyTheRejectionDependsOnTheCommandPort :
    Obligations.OnlyTheRejectionDependsOnTheCommandPort := by
  intro r i j o p hij ho hp
  cases hr : i.rst with
  | true =>
    rw [outputs_of_rst hr] at ho
    rw [outputs_of_rst (hij ▸ hr)] at hp
    cases ho; cases hp
    exact ⟨rfl, rfl, rfl, rfl⟩
  | false =>
    cases hs : r.st with
    | idle =>
      rw [outputs_of_idle hr hs] at ho
      rw [outputs_of_idle (hij ▸ hr) hs] at hp
      cases ho; cases hp
      exact ⟨rfl, rfl, rfl, rfl⟩
    | send =>
      rw [outputs_of_send hr hs] at ho
      rw [outputs_of_send (hij ▸ hr) hs] at hp
      obtain rfl : o = p := Option.some.inj (ho.symm.trans hp)
      exact ⟨rfl, rfl, rfl, rfl⟩

end Sys2Proof.Machine
end

