-- ==== Sys2Proof/Proofs/Link.lean ====
section
/-!
The byte that the output link offers in a step, and when it is transferred (R34); and the order of the events there (R38).
-/

namespace Sys2Proof.Machine

/-! ### The offered byte -/

/-- A step offers `b`, marked `last`: outside reset a frame is in progress, and `b` is its byte at this position (R34). -/
def State.Offers (s : State) (b : Byte) (last : Bool) : Prop :=
  s.input.rst = false ∧ s.regs.st = .send ∧
    field s.regs.opr s.regs.idx s.regs.opd s.regs.acc = some b ∧
    last = decide (s.regs.idx = lastIdx s.regs.opr)

/-- What a step offers is what its outputs show. -/
theorem State.offers_iff {s : State} {o : Output} (ho : s.output = some o) (b : Byte)
    (last : Bool) :
    s.Offers b last ↔ o.txValid = true ∧ b = o.txData ∧ last = o.txLast := by
  rw [State.output] at ho
  cases hr : s.input.rst with
  | true =>
    rw [outputs_of_rst hr] at ho
    cases ho
    simp [State.Offers, hr, quietOutput]
  | false =>
    cases hs : s.regs.st with
    | idle =>
      rw [outputs_of_idle hr hs] at ho
      cases ho
      simp [State.Offers, hs, idleOutput]
    | send =>
      rw [outputs_of_send hr hs] at ho
      obtain ⟨c, hf, rfl⟩ := Option.map_eq_some_iff.mp ho
      simp [State.Offers, hr, hs, hf, txOutput, eq_comm, beq_eq_decide]

/-- A byte on offer stays on offer while the registers stay and reset is not asserted. -/
theorem State.Offers.of_regs_eq {s t : State} {b : Byte} {last : Bool} (h : s.Offers b last)
    (hregs : t.regs = s.regs) (hr : t.input.rst = false) : t.Offers b last := by
  obtain ⟨-, hs, hf, hl⟩ := h
  exact ⟨hr, by rwa [hregs], by rwa [hregs], by rwa [hregs]⟩

theorem State.Offers.output_eq {s : State} {b : Byte} {last : Bool} (h : s.Offers b last) :
    s.output = some (txOutput b last) := by
  obtain ⟨hr, hs, hf, rfl⟩ := h
  rw [State.output, outputs_of_send hr hs, hf]
  rfl

/-! ### The transfer -/

theorem sendStep_of_offers {s t : State} {b : Byte} {last : Bool} (h : s.Offers b last)
    (ht : step s = .next t) : sendStep s = .next t := by
  obtain ⟨hr, hs, -, -⟩ := h
  exact (step_of_send hr hs).symm.trans ht

/-- A `SEND` step records a transfer exactly when the sink is ready: that of the byte at this position. -/
theorem sendStep_records_tx_iff {s t : State} (hr : s.input.rst = false) (hs : s.regs.st = .send)
    (ht : sendStep s = .next t) (b : Byte) (last : Bool) :
    t.events = s.events ++ [.tx b last] ↔ s.Offers b last ∧ s.input.txReady = true := by
  obtain ⟨c, hf, ⟨hy, rfl⟩ | ⟨hy, hl, rfl⟩ | ⟨hy, hl, rfl⟩⟩ := sendStep_cases ht
  · simp [hy]
  · rw [State.Offers, hf]
    simp [hr, hs, hl, hy, eq_comm]
  · rw [State.Offers, hf]
    simp [hr, hs, hl, hy, eq_comm]

/-- A step records a transfer exactly when it offers that byte and the sink is ready (R34). -/
theorem step_records_tx_iff {s t : State} (ht : step s = .next t) (b : Byte) (last : Bool) :
    t.events = s.events ++ [.tx b last] ↔ s.Offers b last ∧ s.input.txReady = true := by
  obtain ⟨hr, rfl⟩ | ⟨-, hs, -, rfl⟩ | ⟨-, hs, -, -, rfl⟩ | ⟨-, hs, -, -, rfl⟩ | ⟨hr, hs, ht⟩ :=
    step_cases ht
  · simp [State.Offers, hr]
  · simp [State.Offers, hs]
  · simp [State.Offers, hs]
  · simp [State.Offers, hs]
  · exact sendStep_records_tx_iff hr hs ht b last

/-- Settles O27: the step stalls when the sink is not ready, and a stall keeps the registers and so the offer. -/
theorem byteIsTransferredExactlyWhenSinkIsReady :
    Obligations.ByteIsTransferredExactlyWhenSinkIsReady := by
  intro s t o ho ht
  refine ⟨fun b last => ?_, fun hv hn => ?_⟩
  · rw [step_records_tx_iff ht, State.offers_iff ho]
    tauto
  · have hoffer : s.Offers o.txData o.txLast := (State.offers_iff ho _ _).mpr ⟨hv, rfl, rfl⟩
    obtain rfl := sendStep_of_sink_not_ready (sendStep_of_offers hoffer ht) hn
    refine ⟨stall_regs s, stall_events s, fun j hj => ?_⟩
    have hagain : ((stall s).withInput j).Offers o.txData o.txLast :=
      hoffer.of_regs_eq (stall_regs s) hj
    exact ⟨_, hagain.output_eq, rfl, rfl, rfl⟩

/-! ### The order of events -/

/-- Settles O47: each arm's event may come where the registers say the block is. -/
theorem stepKeepsTheOrderOfEvents : Obligations.StepKeepsTheOrderOfEvents :=
  fun _ _ => step_keeps_inv

end Sys2Proof.Machine
end

