-- ==== Sys2Proof/Proofs/Encoding.lean ====
section
/-!
The decoder and the encoder (R51, R54, R56, R63, R64, R66), and the numbers of the opcode table
(notes/assumptions/7.md).
-/

namespace Sys2Proof.Machine

open Sys2Proof.Laws

/-! ### Decoding an encoding -/

/-- An operation is encoded as the command word that it is decoded from (R51). -/
theorem encode_decodeCommand (cw : CommandWord) : encode (decodeCommand cw) = .command cw := by
  have hcw := commandWord_cwOp_cwOpd cw
  cases h : cwOp cw <;> rw [h] at hcw
  · simp [decodeCommand, h, encode, cmdWord_eq, hcw]
  · simp [decodeCommand, h, encode, rspWord_eq, hcw]

theorem decode_encode (i : Instr) : decode (encode i) = .ok i := by
  cases i with
  | encCmd bri ct duv => rw [encode, cmdWord_eq, decode, decodeCommand_encCmd]
  | encRsp ign cid => rw [encode, rspWord_eq, decode, decodeCommand_encRsp]
  | cmdFrame high low ct duv sum => rfl
  | rspFrame cid sum => simp [encode, decode, decodeFrame, decodeRspFrame, Config.protocol]

/-- Settles O39, format by format. -/
theorem decodeGivesBackEveryEncodedInstruction :
    Obligations.DecodeGivesBackEveryEncodedInstruction :=
  decode_encode

/-- Settles O40: a command word is that of its operands, and bytes decode only in the two formats. -/
theorem everyDecodedItemIsTheEncodingOfItsInstruction :
    Obligations.EveryDecodedItemIsTheEncodingOfItsInstruction := by
  intro image i h
  cases image with
  | command cw =>
    obtain rfl : decodeCommand cw = i := Except.ok.inj h
    exact encode_decodeCommand cw
  | frame bytes =>
    obtain ⟨high, low, ct, duv, sum, rfl, rfl⟩ | ⟨cid, sum, rfl, rfl⟩ := decodeFrame_eq_ok h
    · rfl
    · rfl

/-- Settles O43: the header and the length field in each of the two formats. -/
theorem headerTellsTheFormatsApart : Obligations.HeaderTellsTheFormatsApart := by
  intro bytes i h
  obtain ⟨high, low, ct, duv, sum, rfl, -⟩ | ⟨cid, sum, rfl, -⟩ := decodeFrame_eq_ok h
  · exact ⟨.inl ⟨rfl, rfl⟩, _, rfl, rfl⟩
  · exact ⟨.inr ⟨rfl, rfl⟩, _, rfl, rfl⟩

/-! ### Bytes as a number -/

/-- The last of the bytes of a number is its lowest. -/
theorem natToBytes_succ (n w : Nat) :
    natToBytes (n + 1) w = natToBytes n (w / 256) ++ [BitVec.ofNat 8 w] := by
  induction n with
  | zero => rfl
  | succ n ih =>
    have hshift : w >>> (8 * (n + 1)) = (w / 256) >>> (8 * n) := by
      rw [Nat.mul_succ, Nat.add_comm, Nat.shiftRight_add, Nat.shiftRight_eq_div_pow w 8]
    rw [natToBytes, ih, hshift]
    rfl

theorem natToBytes_bytesToNat (l : List Byte) : natToBytes l.length (bytesToNat l) = l := by
  induction l using List.reverseRecOn with
  | nil => rfl
  | append_singleton l b ih =>
    have hlow : BitVec.ofNat 8 (bytesToNat l * 256 + b.toNat) = b := by
      apply BitVec.eq_of_toNat_eq
      simp [Nat.mod_eq_of_lt b.isLt]
    have hhigh : (bytesToNat l * 256 + b.toNat) / 256 = bytesToNat l := by
      have := b.isLt
      omega
    rw [List.length_append, List.length_singleton, bytesToNat_snoc, natToBytes_succ, hlow, hhigh, ih]

/-! ### The table's words -/

/-- A table word that is the number of an item is read as that item, and so as the instruction encoded there. -/
theorem decodeTableWord_of_image {nbits w : Nat} {i : Instr}
    (h : tableImage nbits w = some (encode i)) : decodeTableWord nbits w = some i := by
  simp [decodeTableWord, h, decode_encode]

theorem tableImage_command {nbits : Nat} (cw : CommandWord) (h : nbits = 33 ∨ nbits = 40) :
    tableImage nbits (imageToNat (.command cw)) = some (.command cw) := by
  rw [tableImage, if_pos ⟨h, cw.isLt⟩, imageToNat, BitVec.ofNat_toNat, BitVec.setWidth_eq]

/-- Five bytes whose number is above every command word. -/
theorem tableImage_fiveBytes {bytes : List Byte} (hl : bytes.length = 5)
    (hw : 2 ^ 33 ≤ bytesToNat bytes) :
    tableImage 40 (imageToNat (.frame bytes)) = some (.frame bytes) := by
  have hlt : bytesToNat bytes < 2 ^ 40 := by simpa [hl] using bytesToNat_lt bytes
  have hback := natToBytes_bytesToNat bytes
  rw [hl] at hback
  rw [imageToNat, tableImage, if_neg (by omega), if_pos ⟨rfl, hlt⟩, hback]

theorem tableImage_eightBytes {bytes : List Byte} (hl : bytes.length = 8) :
    tableImage 64 (imageToNat (.frame bytes)) = some (.frame bytes) := by
  have hlt : bytesToNat bytes < 2 ^ 64 := by simpa [hl] using bytesToNat_lt bytes
  have hback := natToBytes_bytesToNat bytes
  rw [hl] at hback
  rw [imageToNat, tableImage, if_neg (by omega), if_neg (by omega), if_pos ⟨rfl, hlt⟩, hback]

/-- The table's match stands in every response frame, so the number is at least the match. -/
theorem two_pow_le_imageToNat_rspFrame (cid sum : Byte) :
    2 ^ 33 ≤ imageToNat (encode (.rspFrame cid sum)) := by
  obtain ⟨-, hmask⟩ := TableMatch.rspFrame cid sum
  calc 2 ^ 33 ≤ (tableRow (.rspFrame cid sum)).pattern := by norm_num [tableRow]
    _ ≤ imageToNat (encode (.rspFrame cid sum)) := hmask ▸ Nat.and_le_left

/-- A command word is read at its own width and at that width in whole bytes. -/
theorem decodeTableWord_command {nbits : Nat} {i : Instr} {cw : CommandWord}
    (hi : encode i = .command cw) (h : nbits = 33 ∨ nbits = 40) :
    decodeTableWord nbits (imageToNat (encode i)) = some i :=
  decodeTableWord_of_image (hi ▸ tableImage_command cw h)

/-- Settles O41, row by row. -/
theorem tableWordGivesBackItsInstruction : Obligations.TableWordGivesBackItsInstruction := by
  have hwhole : (33 + 7) / 8 * 8 = 40 := rfl
  intro i
  cases i with
  | encCmd bri ct duv =>
    exact ⟨decodeTableWord_command rfl (.inl rfl), decodeTableWord_command rfl (.inr hwhole)⟩
  | encRsp ign cid =>
    exact ⟨decodeTableWord_command rfl (.inl rfl), decodeTableWord_command rfl (.inr hwhole)⟩
  | cmdFrame high low ct duv sum =>
    have h := decodeTableWord_of_image (i := .cmdFrame high low ct duv sum)
      (tableImage_eightBytes rfl)
    exact ⟨h, show decodeTableWord ((64 + 7) / 8 * 8) _ = _ from h⟩
  | rspFrame cid sum =>
    have h := decodeTableWord_of_image (i := .rspFrame cid sum)
      (tableImage_fiveBytes rfl (two_pow_le_imageToNat_rspFrame cid sum))
    exact ⟨h, show decodeTableWord ((40 + 7) / 8 * 8) _ = _ from h⟩

end Sys2Proof.Machine
end

