-- ==== Sys2Proof/Proofs/IgnoredBits.lean ====
section
/-!
The ignored bits of a response command (R53, R112, U5): of two machines that send the same response frame from latches
that differ in `opd[31:8]` only, each step of the one is a step of the other. Once the frame has left or is reset,
both are in `IDLE`, and so alike.
-/

namespace Sys2Proof.Machine

/-! ### The same machine with another latch -/

/-- The state with other latched operands and another record of events. -/
def State.withLatch (s : State) (d : OperandWord) (es : List Event) : State :=
  { s with regs := { s.regs with opd := d }, events := es }

@[simp] theorem State.withLatch_input (s : State) (d : OperandWord) (es : List Event) :
    (s.withLatch d es).input = s.input := rfl

/-- In `IDLE` the latched operands do not matter. -/
theorem State.alike_withLatch {s : State} (hs : s.regs.st = .idle) (d : OperandWord)
    (es : List Event) : s.Alike (s.withLatch d es) :=
  ⟨.inr ⟨hs, hs⟩, rfl, rfl⟩

theorem accept_withLatch (op : Operation) (opd d : OperandWord) (s : State) :
    (accept op opd s).withLatch d (s.events ++ [.accept op d]) = accept op d s := rfl

theorem State.alike_resetStep_withLatch (s : State) (d : OperandWord) (es : List Event) :
    (resetStep s).Alike (resetStep (s.withLatch d es)) :=
  ⟨.inl rfl, rfl, rfl⟩

/-- Of the latched operands of a response the multiplexer reads the command id only (R58). -/
theorem field_encRsp_of_cid_eq {d₁ d₂ : OperandWord} (h : opdCid d₁ = opdCid d₂) (i : BitVec 3)
    (acc : Byte) : field .encRsp i d₁ acc = field .encRsp i d₂ acc := by
  obtain ⟨n, hn⟩ := i
  interval_cases n <;> simp [field, h]

/-- A `SEND` step of a response is the same from any operands with its command id, and keeps them. -/
theorem sendStep_withLatch {s t : State} {d : OperandWord} (es : List Event)
    (ho : s.regs.opr = .encRsp) (hd : opdCid d = opdCid s.regs.opd) (h : sendStep s = .next t) :
    ∃ e, t.events = s.events ++ e ∧ sendStep (s.withLatch d es) = .next (t.withLatch d (es ++ e)) := by
  obtain ⟨b, hf, ht⟩ := sendStep_cases h
  rw [ho, ← field_encRsp_of_cid_eq hd, ← ho] at hf
  rw [sendStep_of_field (s := s.withLatch d es) hf, State.withLatch_input]
  obtain ⟨hy, rfl⟩ | ⟨hy, hl, rfl⟩ | ⟨hy, hl, rfl⟩ := ht
  · exact ⟨[], rfl, by simp only [hy]; rfl⟩
  · exact ⟨[.tx b false], rfl, by rw [if_pos hy, if_neg (by exact hl)]; rfl⟩
  · exact ⟨[.tx b true], rfl, by rw [if_pos hy, if_pos (by exact hl)]; rfl⟩

/-- Runs from latched responses with the same command id record the same events. -/
theorem run_withLatch {s t₁ t₂ : State} {d : OperandWord} {es : List Event} {n : Nat}
    (ho : s.regs.opr = .encRsp) (hd : opdCid d = opdCid s.regs.opd)
    (h₁ : Host.Core.run Sys2Proof.core n s = .next t₁)
    (h₂ : Host.Core.run Sys2Proof.core n (s.withLatch d es) = .next t₂) :
    ∃ e, t₁.events = s.events ++ e ∧ t₂.events = es ++ e := by
  induction n generalizing s es with
  | zero =>
    cases h₁
    cases h₂
    exact ⟨[], by simp [State.withLatch]⟩
  | succ n ih =>
    cases hs : s.regs.st with
    | idle => exact run_of_alike (State.alike_withLatch hs d es) h₁ h₂
    | send =>
      cases hr : s.input.rst with
      | true =>
        rw [run_succ_of_next (step_of_rst hr)] at h₁
        rw [run_succ_of_next (step_of_rst (s := s.withLatch d es) hr)] at h₂
        obtain ⟨e, he₁, he₂⟩ := run_of_alike (State.alike_resetStep_withLatch s d es) h₁ h₂
        exact ⟨.reset :: e, by simp [he₁], by simp [he₂, State.withLatch]⟩
      | false =>
        obtain ⟨u, hu, h₁⟩ := run_succ_cases h₁
        rw [step_of_send hr hs] at hu
        obtain ⟨e, he, hu₂⟩ := sendStep_withLatch es ho hd hu
        rw [run_succ_of_next ((step_of_send (s := s.withLatch d es) hr hs).trans hu₂)] at h₂
        obtain ⟨hopr, hopd⟩ := sendStep_keeps_latch hu
        obtain ⟨e', he₁, he₂⟩ := ih (hopr ▸ ho) (hopd ▸ hd) h₁ h₂
        exact ⟨e ++ e', by simp [he₁, he], by simp [he₂]⟩

/-! ### From the accept on -/

/-- A presented response command is accepted and latched whole, the ignored bits too (R53, R123). -/
theorem step_present_encRsp {s : State} (hr : s.input.rst = false) (hs : s.regs.st = .idle)
    (opd : OperandWord) :
    step (s.present (commandWord .encRsp opd)) = .next (accept .encRsp opd s) := by
  rw [step_of_accept (s := s.present (commandWord .encRsp opd)) hr hs rfl (rangeCause_encRsp opd)]
  simp only [State.present_input, cwOp_commandWord, cwOpd_commandWord]
  rfl

/-- The results after an accept are those of the events after it: a frame begins there. -/
theorem resultsFrom_append_accept (sent : List Byte) (es after : List Event) (op : Operation)
    (opd : OperandWord) :
    resultsFrom sent (es ++ .accept op opd :: after) = resultsFrom sent es ++ results after := by
  fun_induction resultsFrom sent es <;> simp_all [resultsFrom, results]

/-- Settles O57: the two accepts leave latches with the same command id, and the runs from there record the same
events. -/
theorem ignoredBitsReachNoByte : Obligations.IgnoredBitsReachNoByte := by
  intro s t₁ t₂ n cid a b hs hr h₁ h₂
  rw [rspWord_eq] at h₁ h₂
  cases n with
  | zero =>
    cases h₁
    cases h₂
    exact ⟨rfl, rfl⟩
  | succ n =>
    rw [run_succ_of_next (step_present_encRsp hr hs _)] at h₁ h₂
    have hcid : opdCid (rspOpd b cid) = opdCid (rspOpd a cid) := by simp
    rw [← accept_withLatch .encRsp (rspOpd a cid) (rspOpd b cid)] at h₂
    obtain ⟨e, he₁, he₂⟩ := run_withLatch rfl hcid h₁ h₂
    simp only [he₁, he₂, accept_events, List.append_assoc, List.singleton_append]
    constructor
    · rw [results, results, resultsFrom_append_accept, resultsFrom_append_accept]
    · simp

end Sys2Proof.Machine
end

