-- ==== Sys2Proof/Proofs/Frames.lean ====
section
/-!
The frames spelled out (R54, R56, R57, R60), and a step of each of the two frame instructions (R58, R125, R126, U1;
notes/assumptions/5.md).
-/

namespace Sys2Proof.Machine

/-! ### The checksum and the frames -/

theorem checksum_toNat (l : List Byte) :
    (checksum l).toNat = (l.map BitVec.toNat).sum % 256 := by
  induction l using List.reverseRecOn with
  | nil => rfl
  | append_singleton l b ih =>
    simp [checksum_snoc, BitVec.toNat_add, ih]

theorem frame_eq (op : Operation) (opd : OperandWord) :
    frame op opd = body op opd ++ [checksum (body op opd)] := by
  cases op with
  | encCmd => exact frame_encCmd opd
  | encRsp => exact frame_encRsp opd

theorem body_encCmd (opd : OperandWord) :
    body .encCmd opd = [0x01, 0xA0, 0x04, opdHigh opd, opdLow opd, opdCt opd, opdDuv opd] := rfl

theorem body_encRsp (opd : OperandWord) :
    body .encRsp opd = [0x06, opdCid opd, 0x04, opdCid opd] := rfl

/-- Before the last position `Field` offers the bytes of the body, whatever the accumulator holds (R60). -/
theorem map_field_eq_body (op : Operation) (opd : OperandWord) (acc : Byte) :
    ((List.range (lastIdx op).toNat).map fun i => field op (BitVec.ofNat 3 i) opd acc) =
      (body op opd).map some := by
  cases op with
  | encCmd => rfl
  | encRsp => rfl

theorem sum_toNat_body_encCmd (opd : OperandWord) :
    ((body .encCmd opd).map BitVec.toNat).sum =
      0xA5 + (opdHigh opd).toNat + (opdLow opd).toNat + (opdCt opd).toNat + (opdDuv opd).toNat := by
  simp only [body_encCmd, List.map_cons, List.map_nil, List.sum_cons, List.sum_nil,
    BitVec.ofNat_eq_ofNat, BitVec.toNat_ofNat]
  omega

theorem sum_toNat_body_encRsp (opd : OperandWord) :
    ((body .encRsp opd).map BitVec.toNat).sum = 0x0A + 2 * (opdCid opd).toNat := by
  simp only [body_encRsp, List.map_cons, List.map_nil, List.sum_cons, List.sum_nil,
    BitVec.ofNat_eq_ofNat, BitVec.toNat_ofNat]
  omega

/-- Settles O32: the bodies are spelled out, and their checksum is their sum modulo 256. -/
theorem frameIsWhatTheMultiplexerOffers : Obligations.FrameIsWhatTheMultiplexerOffers := by
  intro opd acc
  refine ⟨fun op => map_field_eq_body op opd acc, fun op => frame_eq op opd,
    ⟨checksum (body .encCmd opd), rfl, ?_⟩, ⟨checksum (body .encRsp opd), rfl, ?_⟩⟩
  · rw [checksum_toNat, sum_toNat_body_encCmd]
    rfl
  · rw [checksum_toNat, sum_toNat_body_encRsp]
    rfl

/-- The checksum of a response frame (R57). -/
theorem rspFrameOf_checksum (cid : Byte) : (rspFrameOf cid).checksum = 0x0A + 2 * cid := by
  show 0 + 0x06 + cid + 0x04 + cid = 0x0A + 2 * cid
  ring

/-- Doubling a byte loses its top bit. -/
theorem two_mul_xor_topBit : ∀ b : Byte, 2 * (b ^^^ 0x80) = 2 * b := by decide

/-- Settles O33: the checksum is 10 and twice the command id. -/
theorem responseChecksumIsEven : Obligations.ResponseChecksumIsEven := by
  intro cid
  rw [rspFrameOf_checksum, rspFrameOf_checksum, two_mul_xor_topBit]
  exact ⟨by simp [BitVec.toNat_add, BitVec.toNat_mul], rfl⟩

/-! ### A `SEND` step with a ready sink -/

/-- With a ready sink a `SEND` step transfers the byte that `Field` offers, marked last at the last position (R125,
R126). -/
theorem sendStep_of_ready {s : State} {b : Byte} (hy : s.input.txReady = true)
    (hf : field s.regs.opr s.regs.idx s.regs.opd s.regs.acc = some b) :
    ∃ t, sendStep s = .next t ∧
      t.events = s.events ++ [.tx b (decide (s.regs.idx.toNat = (lastIdx s.regs.opr).toNat))] ∧
      t.regs = if s.regs.idx.toNat = (lastIdx s.regs.opr).toNat then
        { s.regs with st := .idle, idx := 0, acc := 0x00 }
      else { s.regs with idx := s.regs.idx + 1, acc := s.regs.acc + b } := by
  simp only [BitVec.toNat_inj, sendStep_of_field hf, if_pos hy]
  by_cases hl : s.regs.idx = lastIdx s.regs.opr
  · exact ⟨sendLast b s, by rw [if_pos hl], by simp [hl], by rw [if_pos hl]; rfl⟩
  · exact ⟨sendNext b s, by rw [if_neg hl], by simp [hl], by rw [if_neg hl]; rfl⟩

/-- The bytes that `Field` offers for a command frame, position by position (R54, R58). -/
theorem exists_field_encCmd (i : BitVec 3) (high low ct duv acc : Byte) :
    ∃ b, [0x01, 0xA0, 0x04, high, low, ct, duv, acc][i.toNat]? = some b ∧
      field .encCmd i (cmdOpd (high ++ low) ct duv) acc = some b := by
  obtain ⟨n, hn⟩ := i
  interval_cases n <;> simp [field, Config.protocol]

/-- The bytes that `Field` offers for a response frame at its five positions (R56, R58). -/
theorem exists_field_encRsp {i : BitVec 3} (hi : i.toNat ≤ 4) (opd : OperandWord) (acc : Byte) :
    ∃ b, [0x06, opdCid opd, 0x04, opdCid opd, acc][i.toNat]? = some b ∧
      field .encRsp i opd acc = some b := by
  obtain ⟨n, hn⟩ := i
  have : n ≤ 4 := hi
  interval_cases n <;> simp [field, Config.protocol]

/-! ### The frame instructions -/

/-- Settles O18: the instruction is the `SEND` step, and `Field` has a row at every position of a command frame. -/
theorem cmdFrameInProgressSendsItsByte : Obligations.CmdFrameInProgressSendsItsByte := by
  intro s high low ct duv sum hr hs ho hd hy
  obtain ⟨b, hb, hf⟩ := exists_field_encCmd s.regs.idx high low ct duv s.regs.acc
  obtain ⟨t, ht, he, hregs⟩ := sendStep_of_ready (s := s) (b := b) hy (by rw [ho, hd]; exact hf)
  rw [ho] at he hregs
  exact ⟨t, b, (exec_cmdFrame_of_inFlight sum hr hs ho hd).trans ht, hb, he, hregs⟩

/-- Settles O19: the instruction is the `SEND` step, and `Field` has a row at the first five positions only. -/
theorem rspFrameInProgressSendsItsByte : Obligations.RspFrameInProgressSendsItsByte := by
  intro s cid sum hr hs ho hd
  rw [exec_rspFrame_of_inFlight sum hr hs ho hd]
  refine ⟨fun hi hy => ?_, fun hi => ?_⟩
  · obtain ⟨b, hb, hf⟩ := exists_field_encRsp hi s.regs.opd s.regs.acc
    obtain ⟨t, ht, he, hregs⟩ := sendStep_of_ready (s := s) (b := b) hy (by rw [ho]; exact hf)
    rw [ho] at he hregs
    exact ⟨t, b, ht, hd ▸ hb, he, hregs⟩
  · exact sendStep_of_field_none ((field_eq_none_iff _ _ _ _).mpr ⟨ho, hi⟩)

theorem sendStep_ne_refused (s : State) (r : Refusal) : sendStep s ≠ .refused r := by
  cases hf : field s.regs.opr s.regs.idx s.regs.opd s.regs.acc with
  | none => simp [sendStep_of_field_none hf]
  | some b => simp [sendStep_of_field hf]

/-- A step of a frame is refused exactly when, outside reset, that frame is not in progress. -/
theorem whenInFlight_refused_iff (s : State) (inFlight : Bool) :
    whenInFlight s inFlight = .refused .frameNotInFlight ↔
      s.input.rst = false ∧ ¬(s.regs.st = .send ∧ inFlight = true) := by
  unfold whenInFlight
  split_ifs with hr hi
  · simp [hr]
  · simp [sendStep_ne_refused, hi]
  · simp [hr, hi]

/-- Settles O22, by the gate of the two frame instructions. -/
theorem frameNotInProgressIsRefused : Obligations.FrameNotInProgressIsRefused := by
  intro s high low ct duv cid sum
  constructor
  · exact (whenInFlight_refused_iff s _).trans (by rw [decide_eq_true_iff]; rfl)
  · exact (whenInFlight_refused_iff s _).trans (by rw [decide_eq_true_iff]; rfl)

end Sys2Proof.Machine
end

