-- ==== Sys2Proof/Proofs/SentFrames.lean ====
section
/-!
The frames that the events of a run show (R63, R99, R159): an observer that follows the order of events holds the first
bytes of a frame in range while one is in progress, and so sees that frame whole when its last byte comes.
-/

namespace Sys2Proof.Machine

/-- The frame of an operation whose operands are in range. -/
def IsLegalFrame (f : List Byte) : Prop :=
  ∃ op opd, rangeCause (commandWord op opd) = 0 ∧ f = frame op opd

/-- While a frame is in progress its operands are in range and `bytes` are the ones sent. -/
def Link.Sent : Link → List Byte → Prop
  | .idle, _ => True
  | .sending op opd sent, bytes =>
    rangeCause (commandWord op opd) = 0 ∧ bytes = (frame op opd).take sent

/-! ### One event -/

/-- A byte comes only as the next one of the frame in progress, with `last` on the last one (R132). -/
theorem Link.after_tx_cases {l m : Link} {b : Byte} {last : Bool}
    (h : l.after (.tx b last) = some m) :
    ∃ op opd sent, l = .sending op opd sent ∧ (frame op opd)[sent]? = some b ∧
      last = decide (sent + 1 = frameLength op) ∧
      m = if last then .idle else .sending op opd (sent + 1) := by
  cases l with
  | idle => cases h
  | sending op opd sent =>
    simp only [Link.after, Option.ite_none_right_eq_some, Option.some.injEq] at h
    obtain ⟨⟨hb, hl⟩, rfl⟩ := h
    exact ⟨op, opd, sent, rfl, hb, hl, rfl⟩

theorem Link.sent_of_accept {l m : Link} {op : Operation} {opd : OperandWord}
    (h : l.after (.accept op opd) = some m) : m.Sent [] := by
  cases l with
  | sending op' opd' sent => cases h
  | idle =>
    simp only [Link.after, Option.ite_none_right_eq_some, Option.some.injEq] at h
    obtain ⟨hc, rfl⟩ := h
    exact ⟨hc, rfl⟩

theorem Link.sent_of_reject {l m : Link} {cw : CommandWord} {cause : BitVec 3}
    (h : l.after (.reject cw cause) = some m) : m.Sent [] := by
  cases l with
  | sending op opd sent => cases h
  | idle =>
    simp only [Link.after, Option.ite_none_right_eq_some, Option.some.injEq] at h
    obtain ⟨-, rfl⟩ := h
    trivial

theorem Link.sent_of_reset {l m : Link} (h : l.after .reset = some m) : m.Sent [] := by
  obtain rfl : Link.idle = m := Option.some.inj h
  trivial

theorem Link.sent_of_tx {l m : Link} {bytes : List Byte} {b : Byte} (hs : l.Sent bytes)
    (h : l.after (.tx b false) = some m) : m.Sent (bytes ++ [b]) := by
  obtain ⟨op, opd, sent, rfl, hb, -, rfl⟩ := Link.after_tx_cases h
  obtain ⟨hc, rfl⟩ := hs
  obtain ⟨hlt, rfl⟩ := List.getElem?_eq_some_iff.mp hb
  exact ⟨hc, List.take_append_getElem hlt⟩

/-- With its last byte the frame is whole. -/
theorem Link.legalFrame_of_last {l m : Link} {bytes : List Byte} {b : Byte} (hs : l.Sent bytes)
    (h : l.after (.tx b true) = some m) : IsLegalFrame (bytes ++ [b]) ∧ m = .idle := by
  obtain ⟨op, opd, sent, rfl, hb, hl, rfl⟩ := Link.after_tx_cases h
  obtain ⟨hc, rfl⟩ := hs
  obtain ⟨hlt, rfl⟩ := List.getElem?_eq_some_iff.mp hb
  have hlen : sent + 1 = (frame op opd).length := by
    rw [frame_length, of_decide_eq_true hl.symm]
  exact ⟨⟨op, opd, hc, by rw [List.take_append_getElem hlt, hlen, List.take_length]⟩, rfl⟩

/-! ### All events -/

/-- What the observer knows after more events, from what it knows before them. -/
def Link.afterAll (l : Link) (es : List Event) : Option Link :=
  es.foldl (fun l e => l.bind fun l => l.after e) (some l)

theorem history_eq_afterAll (es : List Event) : history es = Link.idle.afterAll es := rfl

/-- After an event out of order nothing is known any more. -/
theorem foldl_bind_after_none (es : List Event) :
    es.foldl (fun (l : Option Link) e => l.bind fun l => l.after e) none = none := by
  induction es with
  | nil => rfl
  | cons e es ih => exact ih

theorem Link.afterAll_cons {l n : Link} {e : Event} {es : List Event}
    (h : l.afterAll (e :: es) = some n) : ∃ m, l.after e = some m ∧ m.afterAll es = some n := by
  rw [Link.afterAll, List.foldl_cons, Option.bind_some] at h
  cases he : l.after e with
  | none => rw [he, foldl_bind_after_none] at h; cases h
  | some m => exact ⟨m, rfl, by rwa [he] at h⟩

/-- Whatever has been sent of a frame in progress, every whole frame that events in order show is a legal one. -/
theorem legalFrame_of_mem_resultsFrom {l n : Link} {bytes f : List Byte} {es : List Event}
    (hs : l.Sent bytes) (h : l.afterAll es = some n)
    (hf : .accepted f ∈ resultsFrom bytes es) : IsLegalFrame f := by
  induction es generalizing l bytes with
  | nil => cases hf
  | cons e es ih =>
    obtain ⟨m, he, hm⟩ := Link.afterAll_cons h
    match e with
    | .tx b false => exact ih (Link.sent_of_tx hs he) hm hf
    | .tx b true =>
      obtain ⟨hlegal, rfl⟩ := Link.legalFrame_of_last hs he
      obtain hhead | htail := List.mem_cons.mp hf
      · cases hhead
        exact hlegal
      · exact ih (l := .idle) trivial hm htail
    | .reject cw cause =>
      obtain hhead | htail := List.mem_cons.mp hf
      · cases hhead
      · exact ih (Link.sent_of_reject he) hm htail
    | .accept op opd => exact ih (Link.sent_of_accept he) hm hf
    | .reset => exact ih (Link.sent_of_reset he) hm hf

/-! ### The function level -/

/-- `EncodeCommand` of the operands of a latch in range is the frame (R91). -/
theorem encodeCommand_of_inRange {opd : OperandWord}
    (h : (opdBri opd).toNat ≤ 1000 ∧ (1 ≤ (opdCt opd).toNat ∧ (opdCt opd).toNat ≤ 61) ∧
      1 ≤ (opdDuv opd).toNat ∧ (opdDuv opd).toNat ≤ 5) :
    encodeCommand (opdBri opd) (opdCt opd) (opdDuv opd) = .accepted (frame .encCmd opd) := by
  rw [encodeCommand, if_pos h, opdBri_eq, briHigh_append, briLow_append]
  rfl

/-- `EncodeResponse` of the command id of a latch is the frame (R111). -/
theorem frame_encRsp_eq_encodeResponse (opd : OperandWord) :
    frame .encRsp opd = encodeResponse (opdCid opd) := by
  rw [encodeResponse, ← rspFrameOf_checksum]
  rfl

/-- Settles O54: a legal frame is what one of the two functions answers. -/
theorem onlyCorrectFramesLeave : Obligations.OnlyCorrectFramesLeave := by
  intro s f hs hf
  obtain ⟨op, opd, hc, rfl⟩ : IsLegalFrame f :=
    legalFrame_of_mem_resultsFrom (l := .idle) trivial hs.history_eq hf
  cases op with
  | encCmd =>
    rw [rangeCause_encCmd_eq_zero, briInRange_iff, ctInRange_iff, duvInRange_iff] at hc
    exact .inl ⟨_, _, _, hc, encodeCommand_of_inRange hc⟩
  | encRsp => exact .inr ⟨_, frame_encRsp_eq_encodeResponse opd⟩

end Sys2Proof.Machine
end

