-- ==== Sys2Proof/Proofs/Checksum.lean ====
section
/-!
The laws of the checksum (R80, R81), the check that a receiver would apply (R87), and the full recogniser on the frames
that the block sends (R87 and the notes of the frame rows of spec/opcode_table.json).
-/

namespace Sys2Proof.Machine

/-! ### The checksum is a sum of bytes -/

/-- The accumulator holds the sum in the ring of bytes, so the laws of sums of a list are laws of the checksum. -/
theorem checksum_eq_sum (l : List Byte) : checksum l = l.sum :=
  List.sum_eq_foldl.symm

theorem checksum_append (l m : List Byte) : checksum (l ++ m) = checksum l + checksum m := by
  simp only [checksum_eq_sum, List.sum_append]

theorem checksum_perm {l m : List Byte} (h : l.Perm m) : checksum l = checksum m := by
  simp only [checksum_eq_sum, h.sum_eq]

@[simp] theorem checksum_singleton (b : Byte) : checksum [b] = b := by
  simp only [checksum_eq_sum, List.sum_singleton]

/-- The sum wraps as often as it has to: `n` equal bytes (R81, law 6). -/
theorem checksum_replicate_toNat (n : Nat) (b : Byte) :
    (checksum (List.replicate n b)).toNat = n * b.toNat % 256 := by
  rw [checksum_toNat, List.map_replicate, List.sum_replicate, smul_eq_mul]

/-- A list with its own checksum after it has twice that checksum (R81, law 8). -/
theorem checksum_append_checksum_toNat (l : List Byte) :
    (checksum (l ++ [checksum l])).toNat = 2 * (checksum l).toNat % 256 := by
  rw [checksum_snoc, BitVec.toNat_add, two_mul]

/-- Settles O30: the closed form is the lemma on `toNat`, the corner cases are a list of no and of one byte. -/
theorem checksumIsSumModulo256 : Obligations.ChecksumIsSumModulo256 :=
  ⟨checksum_nil, checksum_snoc, checksum_toNat, checksum_singleton, by decide⟩

/-! ### The check of a receiver -/

theorem frameValid_snoc_iff (l : List Byte) (c : Byte) :
    frameValid (l ++ [c]) = true ↔ c = checksum l := by
  rw [frameValid, List.getLast?_concat, List.dropLast_concat, beq_iff_eq, Option.some_inj]

/-- Settles O31: the laws of a sum of bytes, and the check of a list with one more byte. -/
theorem checksumLaws : Obligations.ChecksumLaws := by
  refine ⟨checksum_nil, checksum_append, fun _ _ => checksum_perm, checksum_toNat, ?wrap, ?wrapOnce,
    ?zeroByte, checksum_append_checksum_toNat, ?notAlwaysZero, frameValid_snoc_iff, rfl⟩
  case wrap => exact BitVec.eq_of_toNat_eq (checksum_replicate_toNat 256 0xFF)
  case wrapOnce => decide
  case zeroByte => exact fun l => (checksum_snoc l 0).trans (add_zero _)
  case notAlwaysZero => exact ⟨[0x01], by decide⟩

/-! ### Well-formed frames and the recogniser -/

/-- A command frame is well formed exactly when its operands are in range and its checksum byte is right. -/
theorem wellFormed_cmdFrame_iff (high low ct duv sum : Byte) :
    wellFormed (.cmdFrame high low ct duv sum) = true ↔
      briInRange (high ++ low) = true ∧ ctInRange ct = true ∧ duvInRange duv = true ∧
        sum = (cmdFrameOf high low ct duv).checksum := by
  simp [wellFormed, formError, ite_eq_iff, -briInRange_iff, -ctInRange_iff, -duvInRange_iff]

theorem wellFormed_rspFrame_iff (cid sum : Byte) :
    wellFormed (.rspFrame cid sum) = true ↔ sum = (rspFrameOf cid).checksum := by
  simp [wellFormed, formError]

/-- The frame in progress is well formed when its operands raise no cause. -/
theorem wellFormed_frameInFlight {r : Regs} (h : rangeCause (commandWord r.opr r.opd) = 0) :
    wellFormed (frameInFlight r) = true := by
  cases ho : r.opr with
  | encCmd =>
    rw [ho, rangeCause_encCmd_eq_zero, opdBri_eq] at h
    obtain ⟨hbri, hct, hduv⟩ := h
    rw [frameInFlight, ho]
    exact (wellFormed_cmdFrame_iff _ _ _ _ _).mpr ⟨hbri, hct, hduv, rfl⟩
  | encRsp =>
    rw [frameInFlight, ho]
    exact (wellFormed_rspFrame_iff _ _).mpr rfl

theorem recogniseFrame_eq_some {bytes : List Byte} {i : Instr}
    (hd : decode (.frame bytes) = .ok i) (hw : wellFormed i = true) :
    recogniseFrame bytes = some i := by
  have hbytes : decodeFrame bytes = .ok i := hd
  simp only [recogniseFrame, hbytes, hw, if_true]

/-- Settles O44: the frame decodes to the instruction that a latch of these operands has in progress. -/
theorem sentFramesAreRecognised : Obligations.SentFramesAreRecognised := by
  intro op opd hc
  obtain ⟨r, rfl, rfl⟩ : ∃ r : Regs, r.opr = op ∧ r.opd = opd :=
    ⟨{ st := .send, idx := 0, acc := 0x00, opr := op, opd := opd }, rfl, rfl⟩
  have hd := decode_frame_latch r
  have hw := wellFormed_frameInFlight hc
  exact ⟨_, recogniseFrame_eq_some hd hw, hw,
    everyDecodedItemIsTheEncodingOfItsInstruction _ _ hd⟩

end Sys2Proof.Machine
end

