-- ==== Sys2Proof/Proofs/EncCmd.lean ====
section
/-!
`ENC_CMD` (spec/41_enc_cmd.md): its range check bit by bit (R92, R93), the step in which its word is presented (R90,
R99), and its frame: the bounds of the sum (R96), the operands read back (R98), the function level (R91).
-/

namespace Sys2Proof.Machine

/-! ### The range check (R92, R93) -/

theorem not_eq_decide_of_iff_not {b : Bool} {p : Prop} [Decidable p] (h : b = true ↔ ¬p) :
    (!b) = decide p := by
  cases b <;> simp_all

theorem not_briInRange (bri : BitVec 16) : (!briInRange bri) = decide (1000 < bri.toNat) :=
  not_eq_decide_of_iff_not ((briInRange_iff bri).trans (by omega))

theorem not_ctInRange (ct : Byte) : (!ctInRange ct) = decide (ct.toNat = 0 ∨ 61 < ct.toNat) :=
  not_eq_decide_of_iff_not ((ctInRange_iff ct).trans (by omega))

theorem not_duvInRange (duv : Byte) : (!duvInRange duv) = decide (duv.toNat = 0 ∨ 5 < duv.toNat) :=
  not_eq_decide_of_iff_not ((duvInRange_iff duv).trans (by omega))

/-- Three bits put together, the first one highest. -/
theorem getLsbD_threeBits : ∀ c₂ c₁ c₀ : Bool,
    (BitVec.ofBool c₂ ++ BitVec.ofBool c₁ ++ BitVec.ofBool c₀ : BitVec 3).getLsbD 0 = c₀ ∧
      (BitVec.ofBool c₂ ++ BitVec.ofBool c₁ ++ BitVec.ofBool c₀ : BitVec 3).getLsbD 1 = c₁ ∧
      (BitVec.ofBool c₂ ++ BitVec.ofBool c₁ ++ BitVec.ofBool c₀ : BitVec 3).getLsbD 2 = c₂ := by
  decide

theorem cwOp_of_selector {cw : CommandWord} {b : Bool} (h : cw.getLsbD 32 = b) :
    cwOp cw = .ofBit b := by
  rw [cwOp, h]

/-- Each bit of the cause is one of the three tests, made whatever the other two say. -/
theorem getLsbD_rangeCause {cw : CommandWord} (h : cwOp cw = .encCmd) :
    (rangeCause cw).getLsbD 0 = decide (1000 < (cwBri cw).toNat) ∧
      (rangeCause cw).getLsbD 1 = decide ((cwCt cw).toNat = 0 ∨ 61 < (cwCt cw).toNat) ∧
      (rangeCause cw).getLsbD 2 = decide ((cwDuv cw).toNat = 0 ∨ 5 < (cwDuv cw).toNat) := by
  rw [← not_briInRange, ← not_ctInRange, ← not_duvInRange, rangeCause, h]
  exact getLsbD_threeBits _ _ _

/-- Settles O28: the selector bit says whether the tests are made at all. -/
theorem rangeCauseBits : Obligations.RangeCauseBits := by
  intro cw
  refine ⟨fun h => ?_, fun h => getLsbD_rangeCause (cwOp_of_selector h)⟩
  rw [rangeCause, cwOp_of_selector h]
  rfl

theorem getLsbD_rangeCause_cmdOpd (bri : BitVec 16) (ct duv : Byte) :
    (rangeCause (commandWord .encCmd (cmdOpd bri ct duv))).getLsbD 0 = decide (1000 < bri.toNat) ∧
      (rangeCause (commandWord .encCmd (cmdOpd bri ct duv))).getLsbD 1 =
        decide (ct.toNat = 0 ∨ 61 < ct.toNat) ∧
      (rangeCause (commandWord .encCmd (cmdOpd bri ct duv))).getLsbD 2 =
        decide (duv.toNat = 0 ∨ 5 < duv.toNat) := by
  simpa only [cwBri_commandWord, cwCt_commandWord, cwDuv_commandWord, opdBri_cmdOpd, opdCt_cmdOpd,
    opdDuv_cmdOpd] using getLsbD_rangeCause (cwOp_commandWord .encCmd (cmdOpd bri ct duv))

theorem rangeCause_cmdOpd_eq_zero_iff (bri : BitVec 16) (ct duv : Byte) :
    rangeCause (commandWord .encCmd (cmdOpd bri ct duv)) = 0 ↔
      bri.toNat ≤ 1000 ∧ (1 ≤ ct.toNat ∧ ct.toNat ≤ 61) ∧ 1 ≤ duv.toNat ∧ duv.toNat ≤ 5 := by
  rw [rangeCause_encCmd_eq_zero, opdBri_cmdOpd, opdCt_cmdOpd, opdDuv_cmdOpd, briInRange_iff,
    ctInRange_iff, duvInRange_iff]

/-- The pattern of a negative number has its top bit set (R93). -/
theorem le_toNat_ofInt_of_neg {x : Int} (hl : -32768 ≤ x) (hx : x < 0) :
    32768 ≤ (BitVec.ofInt 16 x).toNat := by
  rw [BitVec.toNat_ofInt]
  omega

/-- Settles O29: such a pattern is at least 32768 as an unsigned number. -/
theorem negativeBrightnessPatternIsRejected : Obligations.NegativeBrightnessPatternIsRejected := by
  intro x ct duv hl hx
  have htop := le_toNat_ofInt_of_neg hl hx
  rw [cmdWord_eq, (getLsbD_rangeCause_cmdOpd _ ct duv).1, decide_eq_true_iff]
  omega

/-! ### The step in which the word is presented (R90, R99) -/

/-- Outside reset and in `IDLE` the presented word is sampled, and the range check decides. -/
theorem exec_encCmd_of_idle {s : State} (hr : s.input.rst = false) (hs : s.regs.st = .idle)
    (bri : BitVec 16) (ct duv : Byte) :
    exec (.encCmd bri ct duv) s = .next
      (if rangeCause (commandWord .encCmd (cmdOpd bri ct duv)) = 0 then
        accept .encCmd (cmdOpd bri ct duv) s
      else raiseReject (commandWord .encCmd (cmdOpd bri ct duv))
        (rangeCause (commandWord .encCmd (cmdOpd bri ct duv))) s) := by
  simp [exec, execEncCmd, whenSampled, hr, hs]

/-- Settles O15: in range no cause is raised, so the word is accepted. -/
theorem encCmdInRangeIsAccepted : Obligations.EncCmdInRangeIsAccepted := by
  intro s bri ct duv hr hs hbri hct₁ hct₂ hduv₁ hduv₂
  have hc := (rangeCause_cmdOpd_eq_zero_iff bri ct duv).mpr ⟨hbri, ⟨hct₁, hct₂⟩, hduv₁, hduv₂⟩
  have hexec := exec_encCmd_of_idle hr hs bri ct duv
  rw [if_pos hc] at hexec
  exact ⟨_, hexec, rfl, rfl⟩

/-- Settles O16: out of range the cause is not 0, so the word is rejected with it. -/
theorem encCmdOutOfRangeIsRejected : Obligations.EncCmdOutOfRangeIsRejected := by
  intro s bri ct duv hr hs hout
  have hc := mt (rangeCause_cmdOpd_eq_zero_iff bri ct duv).mp hout
  rw [cmdWord_eq]
  have hexec := exec_encCmd_of_idle hr hs bri ct duv
  rw [if_neg hc] at hexec
  exact ⟨_, _, hexec, rfl, rfl, hc, getLsbD_rangeCause_cmdOpd bri ct duv⟩

/-! ### The brightness and its two bytes (R94) -/

theorem briHigh_toNat (bri : BitVec 16) : (briHigh bri).toNat = bri.toNat / 256 := by
  rw [briHigh, BitVec.extractLsb'_toNat, Nat.shiftRight_eq_div_pow]
  omega

theorem briLow_toNat (bri : BitVec 16) : (briLow bri).toNat = bri.toNat % 256 := by
  rw [briLow, BitVec.extractLsb'_toNat, Nat.shiftRight_zero]

theorem briHigh_shiftLeft_or_briLow (bri : BitVec 16) :
    ((briHigh bri).toNat <<< 8) ||| (briLow bri).toNat = bri.toNat := by
  rw [← BitVec.toNat_append, briHigh_append_briLow]

/-! ### The sum and the operands of a frame (R96, R98) -/

theorem sum_toNat_body_cmdOpd (bri : BitVec 16) (ct duv : Byte) :
    ((body .encCmd (cmdOpd bri ct duv)).map BitVec.toNat).sum =
      0xA5 + (briHigh bri).toNat + (briLow bri).toNat + ct.toNat + duv.toNat := by
  rw [sum_toNat_body_encCmd, opdHigh_cmdOpd, opdLow_cmdOpd, opdCt_cmdOpd, opdDuv_cmdOpd]

/-- The two bytes of a legal brightness add up to at most 257, at 767 (R96). -/
theorem briHigh_add_briLow_le {bri : BitVec 16} (h : bri.toNat ≤ 1000) :
    (briHigh bri).toNat + (briLow bri).toNat ≤ 257 := by
  rw [briHigh_toNat, briLow_toNat]
  omega

/-- Settles O34: the constant bytes add 165, and each operand its own bounds. -/
theorem commandSumBounds : Obligations.CommandSumBounds := by
  refine ⟨fun bri ct duv hbri hct₁ hct₂ hduv₁ hduv₂ => ?_, by decide, by decide⟩
  have hbytes := briHigh_add_briLow_le hbri
  have hsum := sum_toNat_body_cmdOpd bri ct duv
  rw [cmdOpd] at hsum
  omega

theorem frame_cmdOpd (bri : BitVec 16) (ct duv : Byte) :
    frame .encCmd (cmdOpd bri ct duv) =
      [0x01, 0xA0, 0x04, briHigh bri, briLow bri, ct, duv,
        checksum (body .encCmd (cmdOpd bri ct duv))] := by
  rw [frame_encCmd, body_encCmd, opdHigh_cmdOpd, opdLow_cmdOpd, opdCt_cmdOpd, opdDuv_cmdOpd]
  rfl

/-- Positions 3 to 6 are the four bytes of the latch, so the frame determines it. -/
theorem frame_encCmd_injective {x y : OperandWord} (h : frame .encCmd x = frame .encCmd y) :
    x = y := by
  obtain ⟨hhigh, hlow, hct, hduv⟩ :
      opdHigh x = opdHigh y ∧ opdLow x = opdLow y ∧ opdCt x = opdCt y ∧ opdDuv x = opdDuv y := by
    simp only [frame_encCmd, body_encCmd, List.cons_append, List.cons.injEq] at h
    tauto
  rw [← cmdOpd_views x, ← cmdOpd_views y, hhigh, hlow, hct, hduv]

/-- Settles O35, by the frame spelled out. -/
theorem commandFrameGivesItsOperandsBack : Obligations.CommandFrameGivesItsOperandsBack := by
  refine ⟨fun bri ct duv => ⟨briHigh bri, briLow bri, ?_⟩, fun _ _ => frame_encCmd_injective⟩
  have hframe := frame_cmdOpd bri ct duv
  rw [cmdOpd] at hframe
  rw [hframe]
  exact ⟨rfl, rfl, briHigh_shiftLeft_or_briLow bri, rfl, rfl⟩

/-! ### The function level (R91) -/

theorem encodeCommand_eq_frame {bri : BitVec 16} {ct duv : Byte}
    (h : bri.toNat ≤ 1000 ∧ (1 ≤ ct.toNat ∧ ct.toNat ≤ 61) ∧ 1 ≤ duv.toNat ∧ duv.toNat ≤ 5) :
    encodeCommand bri ct duv = .accepted (frame .encCmd (cmdOpd bri ct duv)) := by
  have hop := encodeCommand_of_inRange (opd := cmdOpd bri ct duv)
  rw [opdBri_cmdOpd, opdCt_cmdOpd, opdDuv_cmdOpd] at hop
  exact hop h

/-- The checksum of a command frame in closed form (R96). -/
theorem checksum_body_cmdOpd_toNat (bri : BitVec 16) (ct duv : Byte) :
    (checksum (body .encCmd (cmdOpd bri ct duv))).toNat =
      (0xA5 + (briHigh bri).toNat + (briLow bri).toNat + ct.toNat + duv.toNat) % 256 := by
  rw [checksum_toNat, sum_toNat_body_cmdOpd]

/-- Settles O36: the test of the function level is the range check of the command word. -/
theorem encodeCommandIsTheFrameOrARejection : Obligations.EncodeCommandIsTheFrameOrARejection := by
  intro bri ct duv
  rw [cmdWord_eq]
  refine ⟨fun hin => ?inRange, fun hout => ?outOfRange⟩
  case inRange =>
    have hframe := encodeCommand_eq_frame hin
    exact ⟨hframe, _, hframe.trans (congrArg EncodeResult.accepted (frame_cmdOpd bri ct duv)),
      checksum_body_cmdOpd_toNat bri ct duv⟩
  case outOfRange =>
    exact ⟨if_neg hout, mt (rangeCause_cmdOpd_eq_zero_iff bri ct duv).mp hout⟩

end Sys2Proof.Machine
end

