-- ==== Sys2Proof/Proofs/EncRsp.lean ====
section
/-!
`ENC_RSP` (spec/42_enc_rsp.md): the function level (R111), and the step in which its word is presented (R110).
-/

namespace Sys2Proof.Machine

/-! ### The function level (R111) -/

/-- Settles O37: the frame of a latch is `EncodeResponse` of its command id, and R60 spells that frame out. -/
theorem encodeResponseIsTheFrame : Obligations.EncodeResponseIsTheFrame := by
  rintro opd _ rfl
  have hframe : encodeResponse (opdCid opd) = frame .encRsp opd :=
    (frame_encRsp_eq_encodeResponse opd).symm
  obtain ⟨-, -, -, c, hbytes, hc⟩ := frameIsWhatTheMultiplexerOffers opd 0
  exact ⟨hframe, c, hframe.trans hbytes, hc⟩

/-! ### The step in which the word is presented (R110) -/

/-- Outside reset and in `IDLE` the presented word is sampled, and no range check can reject it. -/
theorem exec_encRsp_of_idle {s : State} (hr : s.input.rst = false) (hs : s.regs.st = .idle)
    (ign : BitVec 24) (cid : Byte) :
    exec (.encRsp ign cid) s = .next (accept .encRsp (rspOpd ign cid) s) := by
  simp [exec, execEncRsp, whenSampled, hr, hs]

/-- Settles O17: the accept latches the ignored bits and the command id together. -/
theorem encRspIsAlwaysAccepted : Obligations.EncRspIsAlwaysAccepted :=
  fun s ign cid hr hs =>
    ⟨_, exec_encRsp_of_idle hr hs ign cid, accept_regs _ _ s, accept_events _ _ s⟩

end Sys2Proof.Machine
end

