-- ==== Sys2Proof/Proofs/Steps.lean ====
section
/-!
The step function in each of its arms (R121 to R129), with the outputs of that step; what a step does with the samples
(R131); and the instruction that a step runs (R120, R66).
-/

namespace Sys2Proof.Machine

/-! ### What a step does with the samples and the record (R131, D28) -/

/-- A step is the end of a step: new registers, and at most one event. -/
def State.AdvancesTo (s t : State) : Prop :=
  ∃ (r : Regs) (e : List Event), e.length ≤ 1 ∧ t = s.advance r e

theorem State.advancesTo_none (s : State) (r : Regs) : s.AdvancesTo (s.advance r []) :=
  ⟨r, [], Nat.zero_le _, rfl⟩

theorem State.advancesTo_one (s : State) (r : Regs) (e : Event) :
    s.AdvancesTo (s.advance r [e]) :=
  ⟨r, [e], Nat.le_refl _, rfl⟩

theorem sendStep_advances {s t : State} (h : sendStep s = .next t) : s.AdvancesTo t := by
  obtain ⟨b, -, ⟨-, rfl⟩ | ⟨-, -, rfl⟩ | ⟨-, -, rfl⟩⟩ := sendStep_cases h
  · exact s.advancesTo_none _
  · exact s.advancesTo_one _ _
  · exact s.advancesTo_one _ _

theorem step_advances {s t : State} (h : step s = .next t) : s.AdvancesTo t := by
  obtain ⟨-, rfl⟩ | ⟨-, -, -, rfl⟩ | ⟨-, -, -, -, rfl⟩ | ⟨-, -, -, -, rfl⟩ | ⟨-, -, ht⟩ :=
    step_cases h
  · exact s.advancesTo_one _ _
  · exact s.advancesTo_none _
  · exact s.advancesTo_one _ _
  · exact s.advancesTo_one _ _
  · exact sendStep_advances ht

theorem exec_advances {i : Instr} {s t : State} (h : exec i s = .next t) : s.AdvancesTo t := by
  obtain ⟨-, rfl⟩ | ⟨-, -, cw, -, -, rfl⟩ | ⟨-, -, cw, -, -, rfl⟩ | ⟨-, -, ht⟩ := exec_cases h
  · exact s.advancesTo_one _ _
  · exact s.advancesTo_one _ _
  · exact s.advancesTo_one _ _
  · exact sendStep_advances ht

theorem State.AdvancesTo.inputAt_eq {s t : State} (h : s.AdvancesTo t) (k : Nat) :
    t.inputAt k = s.inputAt (k + 1) := by
  obtain ⟨r, e, -, rfl⟩ := h
  exact s.inputAt_advance r e k

/-- Settles O9: whatever the arm is, it ends in the same way. -/
theorem stepUsesOneSampleAndAddsAtMostOneEvent :
    Obligations.StepUsesOneSampleAndAddsAtMostOneEvent := by
  intro s t h
  have hadv : s.AdvancesTo t := by
    obtain h | ⟨i, h⟩ := h
    · exact step_advances h
    · exact exec_advances h
  have hinputs := hadv.inputAt_eq
  obtain ⟨r, e, he, rfl⟩ := hadv
  exact ⟨rfl, rfl, hinputs, e, he, rfl⟩

/-! ### The arms outside `SEND` (R121 to R124) -/

/-- Settles O1, whatever the state and the other inputs are. -/
theorem resetArm : Obligations.ResetArm :=
  fun s hr => ⟨resetStep s, step_of_rst hr, rfl, rfl, outputs_of_rst hr⟩

/-- The outputs of an `IDLE` step that samples a command word. -/
theorem State.output_of_sampled {s : State} (hr : s.input.rst = false) (hs : s.regs.st = .idle)
    (hv : s.input.cmdValid = true) : s.output = some (idleOutput (rangeCause s.input.cw)) := by
  rw [State.output, outputs_of_idle hr hs, if_pos hv]

/-- Settles O2. -/
theorem idleWaitArm : Obligations.IdleWaitArm := by
  intro s hr hs hv
  have hout : s.output = some (idleOutput 0) := by
    rw [State.output, outputs_of_idle hr hs]
    simp [hv]
  exact ⟨idleWait s, step_of_wait hr hs hv, idleWait_regs s, idleWait_events s, hout⟩

/-- A frame just accepted offers its header (R54, R56, R123), whatever is latched. -/
theorem offers_after_accept (op : Operation) (opd : OperandWord) (s : State) {j : Input}
    (hj : j.rst = false) :
    ((accept op opd s).withInput j).Offers (if op = .encRsp then 0x06 else 0x01) false := by
  cases op with
  | encCmd => exact ⟨hj, rfl, rfl, rfl⟩
  | encRsp => exact ⟨hj, rfl, rfl, rfl⟩

/-- Settles O3: the accept leaves the frame at its header. -/
theorem acceptArm : Obligations.AcceptArm := by
  intro s hr hs hv hc
  have hout := State.output_of_sampled hr hs hv
  rw [hc] at hout
  refine ⟨_, step_of_accept hr hs hv hc, rfl, rfl, hout, fun j hj => ?_⟩
  rw [(offers_after_accept _ _ s hj).output_eq, cwOp]
  cases s.input.cw.getLsbD 32 <;> rfl

theorem idleOutput_of_ne_zero {cause : BitVec 3} (h : cause ≠ 0) :
    idleOutput cause = { cmdReady := true, rej := true, rejCause := cause, txValid := false,
                         txData := 0x00, txLast := false } := by
  simpa [idleOutput] using h

/-- Settles O4: the rejection leaves the state in which the same word is rejected again. -/
theorem rejectArm : Obligations.RejectArm := by
  intro s hr hs hv hc
  have hout := State.output_of_sampled hr hs hv
  refine ⟨_, step_of_reject hr hs hv hc, rfl, rfl, ?_, fun j hj hjv hcw => ?_⟩
  · rw [hout, idleOutput_of_ne_zero hc]
  · have hagain := State.output_of_sampled
      (s := (raiseReject s.input.cw (rangeCause s.input.cw) s).withInput j) hj hs hjv
    have hstep := step_of_reject
      (s := (raiseReject s.input.cw (rangeCause s.input.cw) s).withInput j) hj hs hjv (hcw ▸ hc)
    rw [State.withInput_input, hcw] at hagain hstep
    exact ⟨hagain.trans hout.symm, _, hstep, rfl, rfl⟩

/-! ### The arms of `SEND` (R125 to R127) -/

/-- In `SEND` the outputs offer the byte of the multiplexer. -/
theorem State.offers_of_field {s : State} {b : Byte} (hr : s.input.rst = false)
    (hs : s.regs.st = .send) (hf : field s.regs.opr s.regs.idx s.regs.opd s.regs.acc = some b) :
    s.Offers b (decide (s.regs.idx = lastIdx s.regs.opr)) :=
  ⟨hr, hs, hf, rfl⟩

theorem step_of_sendNext {s : State} {b : Byte} (hr : s.input.rst = false)
    (hs : s.regs.st = .send) (hy : s.input.txReady = true) (hl : s.regs.idx ≠ lastIdx s.regs.opr)
    (hf : field s.regs.opr s.regs.idx s.regs.opd s.regs.acc = some b) :
    step s = .next (sendNext b s) := by
  rw [step_of_send hr hs, sendStep_of_field hf, if_pos hy, if_neg hl]

/-- At the last position the byte is the accumulator. -/
theorem step_of_sendLast {s : State} (hr : s.input.rst = false) (hs : s.regs.st = .send)
    (hy : s.input.txReady = true) (hl : s.regs.idx = lastIdx s.regs.opr) :
    step s = .next (sendLast s.regs.acc s) := by
  have hf : field s.regs.opr s.regs.idx s.regs.opd s.regs.acc = some s.regs.acc := by
    rw [hl, field_lastIdx]
  rw [step_of_send hr hs, sendStep_of_field hf, if_pos hy, if_pos hl]

theorem step_of_stall {s : State} {b : Byte} (hr : s.input.rst = false)
    (hs : s.regs.st = .send) (hn : s.input.txReady = false)
    (hf : field s.regs.opr s.regs.idx s.regs.opd s.regs.acc = some b) :
    step s = .next (stall s) := by
  simp [step_of_send hr hs, sendStep_of_field hf, hn]

/-- Settles O5. -/
theorem sendNextArm : Obligations.SendNextArm := by
  intro s b hr hs hy hl hf
  have hout := (State.offers_of_field hr hs hf).output_eq
  rw [decide_eq_false hl] at hout
  exact ⟨_, step_of_sendNext hr hs hy hl hf, by rw [sendNext_regs, ← hs], rfl, hout⟩

/-- Settles O6: the multiplexer offers the accumulator there. -/
theorem sendLastArm : Obligations.SendLastArm := by
  intro s hr hs hy hl
  have hf := field_lastIdx s.regs.opr s.regs.opd s.regs.acc
  rw [← hl] at hf
  have hout := (State.offers_of_field hr hs hf).output_eq
  rw [decide_eq_true hl] at hout
  exact ⟨_, step_of_sendLast hr hs hy hl, rfl, rfl, hout⟩

/-- Settles O7: a stall keeps the registers, and so the offer. -/
theorem stallArm : Obligations.StallArm := by
  intro s b hr hs hn hf
  have hoffer := State.offers_of_field hr hs hf
  refine ⟨_, step_of_stall hr hs hn hf, rfl, stall_events s, hoffer.output_eq, fun j hj => ?_⟩
  have hagain : ((stall s).withInput j).Offers b _ := hoffer.of_regs_eq (stall_regs s) hj
  rw [hagain.output_eq, hoffer.output_eq]

/-! ### Where the step has no result (R129, U1) -/

/-- Outside `SEND`, and in reset, there is always a next state and an output. -/
theorem exists_step_of_not_sending {s : State}
    (h : ¬(s.input.rst = false ∧ s.regs.st = .send)) :
    (∃ t, step s = .next t) ∧ ∃ o, s.output = some o := by
  cases hr : s.input.rst with
  | true => exact ⟨⟨_, step_of_rst hr⟩, _, outputs_of_rst hr⟩
  | false =>
    cases hs : s.regs.st with
    | send => exact absurd ⟨hr, hs⟩ h
    | idle =>
      refine ⟨?_, _, outputs_of_idle hr hs⟩
      cases hv : s.input.cmdValid with
      | false => exact ⟨_, step_of_wait hr hs hv⟩
      | true =>
        by_cases hc : rangeCause s.input.cw = 0
        · exact ⟨_, step_of_accept hr hs hv hc⟩
        · exact ⟨_, step_of_reject hr hs hv hc⟩

/-- Settles O8: in `SEND` the step and the outputs both hang on the row of `Field`. -/
theorem stepFaultsExactlyWhereFieldHasNoRow : Obligations.StepFaultsExactlyWhereFieldHasNoRow := by
  intro s
  refine ⟨fun ⟨hr, hs, ho, hi⟩ => ?_, fun h => ?_⟩
  · have hf : field s.regs.opr s.regs.idx s.regs.opd s.regs.acc = none :=
      (field_eq_none_iff _ _ _ _).mpr ⟨ho, hi⟩
    refine ⟨(step_of_send hr hs).trans (sendStep_of_field_none hf), ?_⟩
    rw [State.output, outputs_of_send hr hs, hf, Option.map_none]
  · by_cases hsend : s.input.rst = false ∧ s.regs.st = .send
    · obtain ⟨hr, hs⟩ := hsend
      have hrow : field s.regs.opr s.regs.idx s.regs.opd s.regs.acc ≠ none :=
        fun hf => h ⟨hr, hs, (field_eq_none_iff _ _ _ _).mp hf⟩
      obtain ⟨b, hf⟩ := Option.ne_none_iff_exists'.mp hrow
      exact ⟨⟨_, (step_of_send hr hs).trans (sendStep_of_field hf)⟩, _,
        (State.offers_of_field hr hs hf).output_eq⟩
    · exact exists_step_of_not_sending hsend

/-! ### The inputs that an arm reads (R128) -/

/-- Of the inputs a `SEND` step reads `tx_ready` only. -/
theorem sendStep_withInput {s : State} {i : Input} (h : i.txReady = s.input.txReady) :
    sendStep (s.withInput i) = sendStep s := by
  cases hf : field s.regs.opr s.regs.idx s.regs.opd s.regs.acc with
  | none =>
    rw [sendStep_of_field_none hf, sendStep_of_field_none (s := s.withInput i) hf]
  | some b =>
    rw [sendStep_of_field hf, sendStep_of_field (s := s.withInput i) hf, State.withInput_input, h]
    rfl

/-- A step reads of its sample what its arm reads, and nothing else. -/
theorem step_withInput {s : State} {i : Input} (hrst : i.rst = s.input.rst)
    (hidle : s.input.rst = false → s.regs.st = .idle →
      i.cmdValid = s.input.cmdValid ∧ (s.input.cmdValid = true → i.cw = s.input.cw))
    (hsend : s.input.rst = false → s.regs.st = .send → i.txReady = s.input.txReady) :
    step (s.withInput i) = step s := by
  cases hr : s.input.rst with
  | true =>
    rw [step_of_rst hr, step_of_rst (s := s.withInput i) (hrst.trans hr)]
    rfl
  | false =>
    have hri : (s.withInput i).input.rst = false := hrst.trans hr
    cases hs : s.regs.st with
    | send =>
      rw [step_of_send hr hs, step_of_send hri hs, sendStep_withInput (hsend hr hs)]
    | idle =>
      obtain ⟨hvalid, hword⟩ := hidle hr hs
      cases hv : s.input.cmdValid with
      | false =>
        rw [step_of_wait hr hs hv, step_of_wait hri hs (hvalid.trans hv)]
        rfl
      | true =>
        have hcw : (s.withInput i).input.cw = s.input.cw := hword hv
        by_cases hc : rangeCause s.input.cw = 0
        · rw [step_of_accept hr hs hv hc,
            step_of_accept hri hs (hvalid.trans hv) (hcw ▸ hc), hcw]
          rfl
        · rw [step_of_reject hr hs hv hc,
            step_of_reject hri hs (hvalid.trans hv) (hcw ▸ hc), hcw]
          rfl

theorem outputs_congr {r : Regs} {i j : Input} (hrst : i.rst = j.rst)
    (hidle : i.rst = false → r.st = .idle →
      i.cmdValid = j.cmdValid ∧ (i.cmdValid = true → i.cw = j.cw)) :
    outputs r i = outputs r j := by
  cases hr : i.rst with
  | true => rw [outputs_of_rst hr, outputs_of_rst (hrst ▸ hr)]
  | false =>
    have hrj : j.rst = false := hrst ▸ hr
    cases hs : r.st with
    | send => rw [outputs_of_send hr hs, outputs_of_send hrj hs]
    | idle =>
      obtain ⟨hvalid, hword⟩ := hidle hr hs
      rw [outputs_of_idle hr hs, outputs_of_idle hrj hs, ← hvalid]
      cases hv : i.cmdValid with
      | false => rfl
      | true => rw [hword hv]

/-- Settles O10: each arm reads of the sample what the premises name. -/
theorem inputsThatAnArmDoesNotReadDoNotMatter :
    Obligations.InputsThatAnArmDoesNotReadDoNotMatter := by
  intro s i j hrst hidle hsend
  refine ⟨?_, outputs_congr hrst hidle⟩
  have hstep : step ((s.withInput i).withInput j) = step (s.withInput i) := by
    refine step_withInput hrst.symm (fun hr hs => ?_) (fun hr hs => (hsend hr hs).symm)
    obtain ⟨hvalid, hword⟩ := hidle hr hs
    exact ⟨hvalid.symm, fun hv => (hword hv).symm⟩
  exact hstep.symm

/-! ### The instruction that a step runs (R120, R66) -/

theorem decode_command_eq_ok {cw : CommandWord} {i : Instr} (h : decode (.command cw) = .ok i) :
    i = decodeCommand cw :=
  (Except.ok.inj h).symm

/-- Settles O11. -/
theorem stepRunsPresentedCommand : Obligations.StepRunsPresentedCommand := by
  intro s i hr hs hv h
  rw [decode_command_eq_ok h]
  exact step_of_presented hr hs hv

/-- The frame of the latch, read back, is run by a `SEND` step. -/
theorem exec_of_decode_frame_latch {s : State} {i : Instr} (hr : s.input.rst = false)
    (hs : s.regs.st = .send) (h : decode (.frame (frame s.regs.opr s.regs.opd)) = .ok i) :
    exec i s = sendStep s := by
  obtain rfl : frameInFlight s.regs = i := Except.ok.inj ((decode_frame_latch s.regs).symm.trans h)
  exact exec_frameInFlight s hr hs

/-- Settles O12. -/
theorem stepRunsFrameInProgress : Obligations.StepRunsFrameInProgress := by
  intro s i hr hs h
  rw [step_of_send hr hs, exec_of_decode_frame_latch hr hs h]

theorem exec_decodeCommand_of_rst {s : State} (cw : CommandWord) (hr : s.input.rst = true) :
    exec (decodeCommand cw) s = .next (resetStep s) := by
  rw [exec_decodeCommand, whenSampled, if_pos hr]

/-- In `SEND` the word of an operation is not read: the frame in progress goes on (R128). -/
theorem exec_decodeCommand_of_send {s : State} (cw : CommandWord) (hr : s.input.rst = false)
    (hs : s.regs.st = .send) : exec (decodeCommand cw) s = sendStep s := by
  simp [exec_decodeCommand, whenSampled, hr, hs]

/-- In `IDLE` the word is sampled, and the range check decides. -/
theorem exec_decodeCommand_of_idle {s : State} (cw : CommandWord) (hr : s.input.rst = false)
    (hs : s.regs.st = .idle) :
    exec (decodeCommand cw) s = .next (if rangeCause cw = 0 then accept (cwOp cw) (cwOpd cw) s
      else raiseReject cw (rangeCause cw) s) := by
  simp [exec_decodeCommand, whenSampled, hr, hs]

/-- Settles O13, phase by phase. -/
theorem execOfCommandIsTheStepThatPresentsIt : Obligations.ExecOfCommandIsTheStepThatPresentsIt := by
  intro cw i s h
  rw [decode_command_eq_ok h]
  cases hr : s.input.rst with
  | true =>
    rw [step_of_rst (s := s.present cw) hr, exec_decodeCommand_of_rst cw hr]
    rfl
  | false =>
    cases hs : s.regs.st with
    | send =>
      rw [exec_decodeCommand_of_send cw hr hs, step_of_send (s := s.present cw) hr hs]
      exact (sendStep_withInput rfl).symm
    | idle =>
      rw [step_of_presented (s := s.present cw) hr hs rfl, State.present_input,
        exec_decodeCommand_of_idle cw hr hs, exec_decodeCommand_of_idle (s := s.present cw) cw hr hs]
      rfl

/-- Settles O21: both instructions are the `SEND` step, which keeps the latch and records at most a transfer. -/
theorem commandWhileSendingIsIgnored : Obligations.CommandWhileSendingIsIgnored := by
  intro s i j cw hr hs hi hj
  obtain rfl := decode_command_eq_ok hi
  have hexec := exec_decodeCommand_of_send cw hr hs
  refine ⟨hexec.trans (exec_of_decode_frame_latch hr hs hj).symm, fun t ht => ?_⟩
  have hsend := hexec.symm.trans ht
  obtain ⟨hopr, hopd⟩ := sendStep_keeps_latch hsend
  refine ⟨hopr, hopd, ?_⟩
  cases hy : s.input.txReady with
  | false =>
    obtain rfl := sendStep_of_sink_not_ready hsend hy
    simp
  | true =>
    obtain ⟨b, last, he, -⟩ := sendStep_of_sink_ready hsend hy
    simp [he]

/-- Settles O42: each word and frame is evaluated. -/
theorem writtenOutWordsDecode : Obligations.WrittenOutWordsDecode :=
  ⟨rfl, rfl, rfl, rfl, rfl, rfl, rfl⟩

end Sys2Proof.Machine
end

