-- ==== Sys2Proof/Proofs/Progress.lean ====
section
/-!
A frame in progress is sent to its end (R132, R135). With no reset, each step in which the sink is ready transfers the
next byte, and every other step is a stall: so after `n` steps the index has moved on by the number of ready ones, and
the events so far together with the transfers still to come stay the same (`State.SentBy`).
-/

namespace Sys2Proof.Machine

/-! ### Runs, from their end -/

theorem run_snoc {s t : State} {n : Nat} (h : Host.Core.run Sys2Proof.core n s = .next t) :
    Host.Core.run Sys2Proof.core (n + 1) s = step t := by
  induction n generalizing s with
  | zero =>
    obtain rfl : s = t := Host.Outcome.next.inj h
    cases hs : step s with
    | next u => exact run_succ_of_next hs 0
    | fault r => exact run_succ_of_fault hs 0
    | refused r => exact run_succ_of_refused hs 0
  | succ n ih =>
    obtain ⟨u, hu, h⟩ := run_succ_cases h
    rw [run_succ_of_next hu, ih h]

/-- After `n` steps the samples are those from the `n`-th on. -/
theorem inputAt_of_run {s t : State} {n : Nat} (h : Host.Core.run Sys2Proof.core n s = .next t)
    (k : Nat) : t.inputAt k = s.inputAt (k + n) := by
  induction n generalizing s with
  | zero =>
    cases h
    rfl
  | succ n ih =>
    obtain ⟨u, hu, h⟩ := run_succ_cases h
    rw [ih h, (step_advances hu).inputAt_eq, Nat.add_assoc]

theorem input_of_run {s t : State} {n : Nat} (h : Host.Core.run Sys2Proof.core n s = .next t) :
    t.input = s.inputAt n := by
  rw [State.input, inputAt_of_run h, Nat.zero_add]

theorem State.NoReset.of_le {s : State} {m n : Nat} (h : s.NoReset n) (hmn : m ≤ n) :
    s.NoReset m :=
  fun k hk => h k (lt_of_lt_of_le hk hmn)

/-! ### Counting ready steps -/

theorem State.readySteps_of_samples {s : State} {f : Nat → Input} {n : Nat}
    (h : ∀ k, k < n → s.inputAt k = f k) :
    s.readySteps n = Nat.count (fun k => (f k).txReady = true) n := by
  rw [State.readySteps, Nat.count, List.countP_eq_length_filter]
  congr 1
  refine List.filter_congr fun k hk => ?_
  rw [h k (List.mem_range.mp hk), Bool.decide_eq_true]

theorem State.readySteps_eq_count (s : State) (n : Nat) :
    s.readySteps n = Nat.count (fun k => (s.inputAt k).txReady = true) n :=
  State.readySteps_of_samples fun _ _ => rfl

theorem State.readySteps_of_ready {s : State} {n : Nat} (h : (s.inputAt n).txReady = true) :
    s.readySteps (n + 1) = s.readySteps n + 1 := by
  simp [State.readySteps_eq_count, Nat.count_succ, h]

theorem State.readySteps_of_not_ready {s : State} {n : Nat}
    (h : (s.inputAt n).txReady = false) : s.readySteps (n + 1) = s.readySteps n := by
  simp [State.readySteps_eq_count, Nat.count_succ, h]

theorem State.readySteps_mono (s : State) {m n : Nat} (h : m ≤ n) :
    s.readySteps m ≤ s.readySteps n := by
  simp only [State.readySteps_eq_count]
  exact Nat.count_monotone _ h

/-- Of more than `j` ready steps one has exactly `j` before it. -/
theorem State.exists_ready_step {s : State} {j n : Nat} (h : j < s.readySteps n) :
    ∃ m, m < n ∧ s.readySteps m = j ∧ (s.inputAt m).txReady = true := by
  induction n with
  | zero => exact absurd h (Nat.not_lt_zero j)
  | succ n ih =>
    by_cases hj : j < s.readySteps n
    · obtain ⟨m, hm, hcount, hy⟩ := ih hj
      exact ⟨m, Nat.lt_succ_of_lt hm, hcount, hy⟩
    · cases hy : (s.inputAt n).txReady with
      | false => exact absurd (State.readySteps_of_not_ready hy ▸ h) hj
      | true =>
        rw [State.readySteps_of_ready hy] at h
        exact ⟨n, Nat.lt_succ_self n, by omega, hy⟩

/-! ### The transfers still to come -/

/-- The transfers of the latch's frame from the index on. -/
def Regs.pending (r : Regs) : List Event := (frameEvents r.opr r.opd).drop r.idx.toNat

theorem body_length (op : Operation) (opd : OperandWord) :
    (body op opd).length = (lastIdx op).toNat := by
  rw [body, List.length_dropLast, frame_length, frameLength, Nat.add_sub_cancel]

/-- The body is the frame up to the checksum position. -/
theorem take_lastIdx_frame (op : Operation) (opd : OperandWord) :
    (frame op opd).take (lastIdx op).toNat = body op opd := by
  rw [frame_eq, ← body_length op opd, List.take_left]

theorem frameEvents_drop_next {op : Operation} {opd : OperandWord} {n : Nat} {b : Byte}
    (hb : (frame op opd)[n]? = some b) (hn : n < (lastIdx op).toNat) :
    (frameEvents op opd).drop n = .tx b false :: (frameEvents op opd).drop (n + 1) := by
  rw [← body_length op opd] at hn
  rw [frame_eq, List.getElem?_append_left hn] at hb
  have hevent : (frameEvents op opd)[n]? = some (.tx b false) := by
    rw [frameEvents, List.getElem?_append_left (by simpa using hn), List.getElem?_map, hb]
    rfl
  obtain ⟨hlt, hget⟩ := List.getElem?_eq_some_iff.mp hevent
  rw [List.drop_eq_getElem_cons hlt, hget]

theorem frameEvents_drop_last (op : Operation) (opd : OperandWord) :
    (frameEvents op opd).drop (lastIdx op).toNat = [.tx (checksum (body op opd)) true] := by
  rw [frameEvents, ← body_length op opd, ← List.length_map, List.drop_left]

theorem sendNext_pending {s : State} {b : Byte} (h : s.regs.Inv) (hs : s.regs.st = .send)
    (hf : field s.regs.opr s.regs.idx s.regs.opd s.regs.acc = some b)
    (hl : s.regs.idx ≠ lastIdx s.regs.opr) :
    s.regs.pending = .tx b false :: (sendNext b s).regs.pending := by
  have hlt := h.idx_lt hs hl
  have hdrop := frameEvents_drop_next ((field_of_inv h hs).symm.trans hf) hlt
  rw [← toNat_succ_of_lt_lastIdx hlt] at hdrop
  exact hdrop

/-- At the last position the checksum byte alone is still to come, and the accumulator holds it (R86). -/
theorem pending_of_last {r : Regs} (h : r.Inv) (hs : r.st = .send) (hl : r.idx = lastIdx r.opr) :
    r.pending = [.tx r.acc true] := by
  rw [Regs.pending, h.acc_eq hs, hl, frameEvents_drop_last, take_lastIdx_frame]

/-! ### A frame on its way -/

/-- `t` is in the frame that is in progress in `s`, `k` bytes further on. -/
structure State.SentBy (s t : State) (k : Nat) : Prop where
  inv : t.regs.Inv
  st : t.regs.st = .send
  opr : t.regs.opr = s.regs.opr
  opd : t.regs.opd = s.regs.opd
  idx : t.regs.idx.toNat = s.regs.idx.toNat + k
  events : t.events ++ t.regs.pending = s.events ++ s.regs.pending

theorem State.SentBy.refl {s : State} (h : s.regs.Inv) (hs : s.regs.st = .send) : s.SentBy s 0 :=
  ⟨h, hs, rfl, rfl, rfl, rfl⟩

/-- A step with a sink that is not ready is a stall. -/
theorem State.SentBy.of_not_ready {s t : State} {k : Nat} (h : s.SentBy t k)
    (hr : t.input.rst = false) (hn : t.input.txReady = false) :
    ∃ u, step t = .next u ∧ s.SentBy u k := by
  obtain ⟨b, hf⟩ := exists_field_of_inv h.inv h.st
  refine ⟨_, step_of_stall hr h.st hn hf, h.inv, h.st, h.opr, h.opd, h.idx, ?_⟩
  rw [stall_events, stall_regs, h.events]

/-- Before the last position a step with a ready sink sends one byte more. -/
theorem State.SentBy.of_ready {s t : State} {k : Nat} (h : s.SentBy t k)
    (hr : t.input.rst = false) (hy : t.input.txReady = true)
    (hl : t.regs.idx ≠ lastIdx t.regs.opr) :
    ∃ u, step t = .next u ∧ s.SentBy u (k + 1) := by
  obtain ⟨b, hf⟩ := exists_field_of_inv h.inv h.st
  refine ⟨_, step_of_sendNext hr h.st hy hl hf, sendNext_inv h.inv h.st hf hl, h.st, h.opr,
    h.opd, ?_, ?_⟩
  · rw [sendNext_regs, toNat_succ_of_lt_lastIdx (h.inv.idx_lt h.st hl), h.idx, Nat.add_assoc]
  · rw [← h.events, sendNext_pending h.inv h.st hf hl, sendNext_events, List.append_assoc,
      List.singleton_append]

/-- While the sink has been ready less often than there are bytes left, the frame is in progress and has moved on by the
ready steps (R135). -/
theorem run_while_sending {s : State} {n : Nat} (h : s.regs.Inv) (hs : s.regs.st = .send)
    (hr : s.NoReset n) (hlt : s.regs.idx.toNat + s.readySteps n < frameLength s.regs.opr) :
    ∃ t : State, Host.Core.run Sys2Proof.core n s = .next t ∧ s.SentBy t (s.readySteps n) := by
  induction n with
  | zero => exact ⟨s, run_zero s, State.SentBy.refl h hs⟩
  | succ n ih =>
    have hmono := s.readySteps_mono (Nat.le_add_right n 1)
    obtain ⟨t, hrun, ht⟩ := ih (hr.of_le (Nat.le_succ n)) (by omega)
    have hinput := input_of_run hrun
    have hrt : t.input.rst = false := hinput ▸ hr n (Nat.lt_succ_self n)
    rw [run_snoc hrun]
    cases hy : (s.inputAt n).txReady with
    | false =>
      rw [State.readySteps_of_not_ready hy]
      exact ht.of_not_ready hrt (hinput ▸ hy)
    | true =>
      rw [State.readySteps_of_ready hy] at hlt ⊢
      refine ht.of_ready hrt (hinput ▸ hy) fun hl => ?_
      rw [eq_lastIdx_iff, ht.idx, ht.opr] at hl
      omega

/-- The step in which the sink is ready for the last byte ends the frame, with all its transfers recorded. -/
theorem run_to_end {s : State} {m : Nat} (h : s.regs.Inv) (hs : s.regs.st = .send)
    (hr : s.NoReset (m + 1)) (hm : s.regs.idx.toNat + s.readySteps m + 1 = frameLength s.regs.opr)
    (hy : (s.inputAt m).txReady = true) :
    ∃ t : State, Host.Core.run Sys2Proof.core (m + 1) s = .next t ∧
      t.events = s.events ++ s.regs.pending ∧
      t.regs = { st := .idle, idx := 0, acc := 0x00, opr := s.regs.opr, opd := s.regs.opd } := by
  obtain ⟨t, hrun, ht⟩ := run_while_sending h hs (hr.of_le (Nat.le_succ m)) (by omega)
  have hinput := input_of_run hrun
  have hl : t.regs.idx = lastIdx t.regs.opr := by rw [eq_lastIdx_iff, ht.idx, ht.opr, hm]
  have hrt : t.input.rst = false := hinput ▸ hr m (Nat.lt_succ_self m)
  have hstep := step_of_sendLast hrt ht.st (hinput ▸ hy) hl
  refine ⟨_, (run_snoc hrun).trans hstep, ?_, ?_⟩
  · rw [← ht.events, pending_of_last ht.inv ht.st hl, sendLast_events]
  · rw [sendLast_regs, ← ht.opr, ← ht.opd]

/-! ### The statements -/

/-- Settles O50: after the accept the whole frame is to come, and the last of the `n` steps ends it. -/
theorem acceptedCommandSendsExactlyItsFrame : Obligations.AcceptedCommandSendsExactlyItsFrame := by
  intro s u n hr hs hv hc hstep hreset hready hlast
  obtain rfl : accept (cwOp s.input.cw) (cwOpd s.input.cw) s = u :=
    Host.Outcome.next.inj ((step_of_accept hr hs hv hc).symm.trans hstep)
  have hinv := accept_inv s (by rwa [commandWord_cwOp_cwOpd])
  cases n with
  | zero => exact absurd hready (Nat.succ_ne_zero _).symm
  | succ m =>
    rw [Nat.add_sub_cancel] at hlast
    rw [State.readySteps_of_ready hlast] at hready
    obtain ⟨t, hrun, hevents, hregs⟩ :=
      run_to_end hinv rfl hreset ((congrArg (· + 1) (Nat.zero_add _)).trans hready) hlast
    refine ⟨t, hrun, hevents.trans ?_, hregs⟩
    rw [accept_events, List.append_assoc]
    rfl

/-- Settles O51: too few ready steps leave the frame in progress, and otherwise one of them is for its last byte. -/
theorem frameCompletesExactlyWhenSinkIsReadyOftenEnough :
    Obligations.FrameCompletesExactlyWhenSinkIsReadyOftenEnough := by
  intro s n h hs hr
  constructor
  · rintro ⟨m, t, hmn, hrun, hidle⟩
    by_contra hfew
    have hmono := s.readySteps_mono hmn
    obtain ⟨u, hrun', hu⟩ := run_while_sending h hs (hr.of_le hmn) (by omega)
    obtain rfl : t = u := Host.Outcome.next.inj (hrun.symm.trans hrun')
    exact nomatch hidle.symm.trans hu.st
  · intro henough
    have hle := h.idx_le hs
    rw [frameLength] at henough
    obtain ⟨m, hmn, hcount, hy⟩ : ∃ m, m < n ∧
        s.readySteps m = (lastIdx s.regs.opr).toNat - s.regs.idx.toNat ∧
        (s.inputAt m).txReady = true :=
      State.exists_ready_step (by omega)
    have hend : s.regs.idx.toNat + s.readySteps m + 1 = frameLength s.regs.opr := by
      rw [hcount, Nat.add_sub_of_le hle, frameLength]
    obtain ⟨t, hrun, -, hregs⟩ := run_to_end h hs (hr.of_le hmn) hend hy
    exact ⟨m + 1, t, hmn, hrun, congrArg Regs.st hregs⟩

theorem State.inputAt_withInputs_samples (s : State) (f : Nat → Input) {k n : Nat} (h : k < n) :
    (s.withInputs (samples f n)).inputAt k = f k := by
  simp [State.inputAt, State.withInputs, samples, h]

/-- Under `SinkFair` there is a ready step with exactly `j` ready ones before it. -/
theorem SinkFair.exists_ready {f : Nat → Input} (h : SinkFair f) (j : Nat) :
    ∃ m, Nat.count (fun k => (f k).txReady = true) m = j ∧ (f m).txReady = true := by
  have hinf : (Set.ofPred fun k => (f k).txReady = true).Infinite :=
    Set.infinite_of_forall_exists_gt fun k => by
      obtain ⟨m, hm, hy⟩ := h (k + 1)
      exact ⟨m, hy, hm⟩
  exact ⟨Nat.nth _ j, Nat.count_nth_of_infinite hinf j, Nat.nth_mem_of_infinite hinf j⟩

/-- Settles O52: fairness gives the ready step for the last byte, and the samples up to it carry no reset. -/
theorem fairSinkGetsEveryFrameWhole : Obligations.FairSinkGetsEveryFrameWhole := by
  intro f s hfair hnever h hs
  obtain ⟨m, hcount, hy⟩ := hfair.exists_ready ((lastIdx s.regs.opr).toNat - s.regs.idx.toNat)
  have hsample : ∀ k, k < m + 1 → (s.withInputs (samples f (m + 1))).inputAt k = f k :=
    fun _ => s.inputAt_withInputs_samples f
  have hready := State.readySteps_of_samples fun k hk => hsample k (Nat.lt_succ_of_lt hk)
  have hend : s.regs.idx.toNat + (s.withInputs (samples f (m + 1))).readySteps m + 1 =
      frameLength s.regs.opr := by
    rw [hready, hcount, Nat.add_sub_of_le (h.idx_le hs), frameLength]
  obtain ⟨t, hrun, hevents, hregs⟩ :=
    run_to_end (s := s.withInputs (samples f (m + 1))) h hs
      (fun k hk => hsample k hk ▸ hnever k) hend (hsample m (Nat.lt_succ_self m) ▸ hy)
  exact ⟨m + 1, t, hrun, congrArg Regs.st hregs, hevents⟩

end Sys2Proof.Machine
end

