-- ==== Sys2Proof/Proofs/Transactions.lean ====
section
/-!
The results of a run are those of the transaction-level machine (R133): an observer that follows the order of events
knows the command whose result is still to come, and each result that comes is the pure function of its command.
-/

namespace Sys2Proof.Machine

/-! ### The transaction-level machine on accepted and rejected words -/

theorem transact_of_accept {op : Operation} {opd : OperandWord}
    (hc : rangeCause (commandWord op opd) = 0) :
    transact (commandWord op opd) = .accepted (frame op opd) := by
  rw [transact, cwOp_commandWord]
  cases op with
  | encCmd =>
    rw [rangeCause_encCmd_eq_zero, briInRange_iff, ctInRange_iff, duvInRange_iff] at hc
    simp only [cwBri_commandWord, cwCt_commandWord, cwDuv_commandWord]
    exact encodeCommand_of_inRange hc
  | encRsp => simp only [cwCid_commandWord, frame_encRsp_eq_encodeResponse]

theorem transact_of_reject {cw : CommandWord} (hc : rangeCause cw ≠ 0) :
    transact cw = .rejected (rangeCause cw) := by
  obtain ⟨op, opd, rfl⟩ : ∃ op opd, cw = commandWord op opd :=
    ⟨_, _, (commandWord_cwOp_cwOpd cw).symm⟩
  cases op with
  | encRsp => exact absurd (rangeCause_encRsp opd) hc
  | encCmd =>
    obtain ⟨bri, ct, duv, rfl⟩ : ∃ bri ct duv, opd = cmdOpd bri ct duv :=
      ⟨_, _, _, (cmdOpd_views opd).symm⟩
    have hout := mt (rangeCause_cmdOpd_eq_zero_iff bri ct duv).mpr hc
    simp only [transact, cwOp_commandWord, cwBri_commandWord, cwCt_commandWord,
      cwDuv_commandWord, opdBri_cmdOpd, opdCt_cmdOpd, opdDuv_cmdOpd]
    exact if_neg hout

/-! ### One event -/

/-- The command that an observer knows to be in progress. -/
def Link.command : Link → List CommandWord
  | .idle => []
  | .sending op opd _ => [commandWord op opd]

theorem Link.after_accept_cases {l m : Link} {op : Operation} {opd : OperandWord}
    (h : l.after (.accept op opd) = some m) : l = .idle ∧ m = .sending op opd 0 := by
  cases l with
  | sending op' opd' sent => cases h
  | idle =>
    simp only [Link.after, Option.ite_none_right_eq_some, Option.some.injEq] at h
    exact ⟨rfl, h.2.symm⟩

theorem Link.after_reject_cases {l m : Link} {cw : CommandWord} {cause : BitVec 3}
    (h : l.after (.reject cw cause) = some m) :
    l = .idle ∧ m = .idle ∧ cause = rangeCause cw ∧ cause ≠ 0 := by
  cases l with
  | sending op opd sent => cases h
  | idle =>
    simp only [Link.after, Option.ite_none_right_eq_some, Option.some.injEq] at h
    obtain ⟨⟨hcause, hne⟩, rfl⟩ := h
    exact ⟨rfl, rfl, hcause, hne⟩

theorem Link.command_of_tx {l m : Link} {b : Byte} (h : l.after (.tx b false) = some m) :
    m.command = l.command := by
  obtain ⟨op, opd, sent, rfl, -, -, rfl⟩ := Link.after_tx_cases h
  rfl

/-- With the last byte the frame is whole, and it is the result of the command in progress. -/
theorem Link.result_of_last {l m : Link} {bytes : List Byte} {b : Byte} (hs : l.Sent bytes)
    (h : l.after (.tx b true) = some m) :
    l.command.map transact = [.accepted (bytes ++ [b])] ∧ m = .idle := by
  obtain ⟨op, opd, sent, rfl, hb, hl, rfl⟩ := Link.after_tx_cases h
  obtain ⟨hc, rfl⟩ := hs
  obtain ⟨hlt, rfl⟩ := List.getElem?_eq_some_iff.mp hb
  have hlen : sent + 1 = (frame op opd).length := by
    rw [frame_length, of_decide_eq_true hl.symm]
  have hwhole : (frame op opd).take sent ++ [(frame op opd)[sent]] = frame op opd := by
    rw [List.take_append_getElem hlt, hlen, List.take_length]
  exact ⟨by rw [hwhole, Link.command, List.map_singleton, transact_of_accept hc], rfl⟩

/-! ### All events -/

/-- Events in order, with no reset and nothing in progress after them, show the result of the command in progress and
then those of the commands sampled. -/
theorem resultsFrom_eq_map_transact {l : Link} {bytes : List Byte} {es : List Event}
    (hs : l.Sent bytes) (h : l.afterAll es = some .idle) (hr : Event.reset ∉ es) :
    resultsFrom bytes es = (l.command ++ commands es).map transact := by
  induction es generalizing l bytes with
  | nil =>
    obtain rfl : l = .idle := Option.some.inj h
    rfl
  | cons e es ih =>
    obtain ⟨m, he, hm⟩ := Link.afterAll_cons h
    have hres : Event.reset ∉ es := fun hmem => hr (List.mem_cons_of_mem e hmem)
    match e with
    | .tx b false =>
      rw [resultsFrom, ih (Link.sent_of_tx hs he) hm hres, Link.command_of_tx he, commands]
    | .tx b true =>
      obtain ⟨hresult, rfl⟩ := Link.result_of_last hs he
      rw [List.map_append, hresult, resultsFrom, ih (l := .idle) trivial hm hres]
      rfl
    | .accept op opd =>
      have hsent := Link.sent_of_accept he
      obtain ⟨rfl, rfl⟩ := Link.after_accept_cases he
      rw [resultsFrom, ih hsent hm hres]
      rfl
    | .reject cw cause =>
      obtain ⟨rfl, rfl, rfl, hc⟩ := Link.after_reject_cases he
      rw [resultsFrom, ih (l := .idle) trivial hm hres, ← transact_of_reject hc]
      rfl
    | .reset => exact absurd List.mem_cons_self hr

/-- Settles O53: in `IDLE` nothing is in progress, before the events and after them. -/
theorem runIsTheTransactionMachine : Obligations.RunIsTheTransactionMachine := by
  intro s hs hidle hr
  have hhistory : Link.idle.afterAll s.events = some .idle :=
    hs.history_eq.trans (congrArg some (Regs.link_of_idle hidle))
  exact resultsFrom_eq_map_transact (l := .idle) trivial hhistory hr

end Sys2Proof.Machine
end

