-- ==== Sys2Proof/Proofs/Exceptions.lean ====
section
/-!
The exceptions (spec/60_exceptions.md): when `rej` is raised and with what cause (R150, R151), the static length check
(R154), reset before everything else (R156), and no byte from a rejection (R159).
-/

namespace Sys2Proof.Machine

/-! ### The rejection on the outputs (R150, R151) -/

/-- A cause is raised when one of its three bits is set. -/
theorem cause_ne_zero_iff_getLsbD : ∀ c : BitVec 3,
    c ≠ 0 ↔ c.getLsbD 0 = true ∨ c.getLsbD 1 = true ∨ c.getLsbD 2 = true := by
  decide

/-- A word raises a cause when it is an `ENC_CMD` word with an operand out of range. -/
theorem rangeCause_ne_zero_iff (cw : CommandWord) :
    rangeCause cw ≠ 0 ↔ cw.getLsbD 32 = false ∧
      (1000 < (cwBri cw).toNat ∨ ((cwCt cw).toNat = 0 ∨ 61 < (cwCt cw).toNat) ∨
        (cwDuv cw).toNat = 0 ∨ 5 < (cwDuv cw).toNat) := by
  obtain ⟨hrsp, -⟩ := rangeCauseBits cw
  cases hop : cw.getLsbD 32 with
  | true => simp [hrsp hop]
  | false =>
    obtain ⟨hbri, hct, hduv⟩ := getLsbD_rangeCause (cwOp_of_selector hop)
    rw [cause_ne_zero_iff_getLsbD, hbri, hct, hduv]
    simp only [decide_eq_true_eq, true_and]

/-- The outputs show the range check of a sampled word; where none is sampled they show no rejection. -/
theorem outputs_cases {r : Regs} {i : Input} {o : Output} (h : outputs r i = some o) :
    (r.st = .idle ∧ i.cmdValid = true ∧ i.rst = false ∧ o = idleOutput (rangeCause i.cw)) ∨
    ((r.st = .idle → i.cmdValid = true → i.rst = true) ∧ o.rej = false ∧ o.rejCause = 0) := by
  cases hr : i.rst with
  | true =>
    obtain rfl : quietOutput = o := Option.some.inj ((outputs_of_rst hr).symm.trans h)
    exact .inr ⟨fun _ _ => rfl, rfl, rfl⟩
  | false =>
    cases hs : r.st with
    | send =>
      rw [outputs_of_send hr hs] at h
      obtain ⟨b, -, rfl⟩ := Option.map_eq_some_iff.mp h
      exact .inr ⟨nofun, rfl, rfl⟩
    | idle =>
      rw [outputs_of_idle hr hs] at h
      obtain rfl := Option.some.inj h
      cases hv : i.cmdValid with
      | true => exact .inl ⟨rfl, rfl, rfl, rfl⟩
      | false => exact .inr ⟨nofun, rfl, rfl⟩

theorem idleOutput_rej_iff (cause : BitVec 3) : (idleOutput cause).rej = true ↔ cause ≠ 0 :=
  bne_iff_ne

/-- Settles O25: a sampled word shows its range check, and any other step shows no rejection. -/
theorem rejectIsRaisedExactlyWhen : Obligations.RejectIsRaisedExactlyWhen := by
  intro r i o h
  obtain ⟨hs, hv, hr, rfl⟩ | ⟨hnot, hrej, hcause⟩ := outputs_cases h
  · have hrej := idleOutput_rej_iff (rangeCause i.cw)
    have hout := hrej.trans (rangeCause_ne_zero_iff i.cw)
    refine ⟨⟨fun hj => ⟨hs, hv, hr, hout.mp hj⟩, fun ⟨_, _, _, hj⟩ => hout.mpr hj⟩, hrej,
      fun hj => ?_⟩
    obtain ⟨hop, -⟩ := hout.mp hj
    exact (rangeCauseBits i.cw).2 hop
  · refine ⟨⟨fun hj => ?_, fun ⟨hs, hv, hr, _⟩ => ?_⟩, by simp [hrej, hcause], fun hj => ?_⟩
    · simp [hrej] at hj
    · simp [hnot hs hv] at hr
    · simp [hrej] at hj

/-! ### No byte from a rejection (R159) -/

theorem Link.afterAll_append {l n : Link} {es fs : List Event} (h : l.afterAll (es ++ fs) = some n) :
    ∃ m, l.afterAll es = some m ∧ m.afterAll fs = some n := by
  rw [Link.afterAll, List.foldl_append, ← Link.afterAll] at h
  cases hes : l.afterAll es with
  | none => rw [hes, foldl_bind_after_none] at h; cases h
  | some m => exact ⟨m, rfl, by rwa [hes] at h⟩

/-- With nothing in progress no byte comes before an accept: neither a reset nor a rejection begins a frame. -/
theorem exists_accept_before_tx {between after : List Event} {b : Byte} {last : Bool} {n : Link}
    (h : Link.idle.afterAll (between ++ .tx b last :: after) = some n) :
    ∃ op opd, Event.accept op opd ∈ between := by
  induction between with
  | nil =>
    obtain ⟨m, he, -⟩ := Link.afterAll_cons h
    cases he
  | cons e between ih =>
    obtain ⟨m, he, hm⟩ := Link.afterAll_cons h
    have hlater : m = .idle → ∃ op opd, Event.accept op opd ∈ e :: between := by
      rintro rfl
      obtain ⟨op, opd, hmem⟩ := ih hm
      exact ⟨op, opd, List.mem_cons_of_mem e hmem⟩
    cases e with
    | accept op opd => exact ⟨op, opd, List.mem_cons_self⟩
    | tx c last => cases he
    | reset => exact hlater (Option.some.inj he).symm
    | reject cw cause =>
      obtain ⟨-, hidle, -⟩ := Link.after_reject_cases he
      exact hlater hidle

/-- Settles O55: a rejection comes, and leaves the block, with nothing in progress. -/
theorem noByteAfterARejectionBeforeAnAccept :
    Obligations.NoByteAfterARejectionBeforeAnAccept := by
  intro s before between after cw cause b last hs hevents
  have hhistory : Link.idle.afterAll s.events = some s.regs.link := hs.history_eq
  rw [hevents] at hhistory
  obtain ⟨l, -, hl⟩ := Link.afterAll_append hhistory
  obtain ⟨m, hreject, hm⟩ := Link.afterAll_cons hl
  obtain ⟨-, rfl, -⟩ := Link.after_reject_cases hreject
  exact exists_accept_before_tx hm

/-! ### Reset before everything else (R156, R170) -/

theorem whenSampled_of_rst {s : State} (sampled : State) (hr : s.input.rst = true) :
    whenSampled s sampled = .next (resetStep s) :=
  if_pos hr

theorem whenInFlight_of_rst {s : State} (inFlight : Bool) (hr : s.input.rst = true) :
    whenInFlight s inFlight = .next (resetStep s) :=
  if_pos hr

theorem exec_of_rst {s : State} (i : Instr) (hr : s.input.rst = true) :
    exec i s = .next (resetStep s) := by
  cases i with
  | encCmd bri ct duv => exact whenSampled_of_rst _ hr
  | encRsp ign cid => exact whenSampled_of_rst _ hr
  | cmdFrame high low ct duv sum => exact whenInFlight_of_rst _ hr
  | rspFrame cid sum => exact whenInFlight_of_rst _ hr

/-- Settles O24: both gates look at reset first. -/
theorem resetOverridesEveryInstruction : Obligations.ResetOverridesEveryInstruction :=
  fun i s hr => ⟨resetStep s, exec_of_rst i hr, resetStep_regs s, resetStep_events s⟩

/-! ### The static length check (R154) -/

theorem lengthAgrees_iff (p : Config.Protocol) : Config.lengthAgrees p = true ↔ p.lenCmd = 4 :=
  beq_iff_eq.trans (BitVec.toNat_inj (y := 4))

theorem build_eq_none_iff (p : Config.Protocol) : Config.build p = none ↔ p.lenCmd ≠ 4 := by
  rw [Config.build, ite_eq_right_iff, Ne, ← lengthAgrees_iff]
  simp

theorem body_encCmd_payload_length (opd : OperandWord) :
    ((body .encCmd opd).drop 3).length = Config.payloadPositions := by
  rw [List.length_drop, body_length]
  rfl

/-- Settles O38: the length field is the number of payload positions (R54, R62). -/
theorem commandLengthFieldCountsThePayload : Obligations.CommandLengthFieldCountsThePayload :=
  ⟨rfl, build_eq_none_iff, body_encCmd_payload_length⟩

end Sys2Proof.Machine
end
